-- ==== Sys2Proof/Word.lean ====
section
/-!
DEFINITION. The word types of the hardware (spec/10_state.md R10, R13, R14): bytes, 16-bit words, and the names of the
sixteen general registers. All values are unsigned; there is no signed quantity (spec/00_scope.md R7).
-/

namespace Sys2Proof

/-- An 8-bit unsigned value: a general register, a timer, a byte of memory (R10, R22, R23). -/
abbrev Byte := BitVec 8

/-- A 16-bit unsigned value: `I`, `PC`, a stack slot, an opcode (R13, R14, R16, R50). -/
abbrev Word := BitVec 16

/-- The number of a general register, V0 to VF (R10); the fields X and Y of an opcode (R51). -/
abbrev Reg := Fin 16

/-- VF, the register that doubles as the flag (R11). -/
abbrev VF : Reg := 15

end Sys2Proof
end

