-- ==== Sys2Proof/Syntax.lean ====
section
/-!
DEFINITION. The 34 instructions of spec/30_encoding.md R55, one constructor per row of spec/opcode_table.json, in the
table's order. `x` and `y` name registers; `nn` and `nnn` are immediates of 8 and 12 bits; `n` is a count (R51, R53), whose
bound stands in WellFormed. `SHR` and `SHL` keep their unused field Y, so that the word round-trips (R57, R59).
-/

namespace Sys2Proof

/-- One instruction with its fields (R55). -/
inductive Instr where
  | cls
  | ret
  | jp (nnn : BitVec 12)
  | call (nnn : BitVec 12)
  | seI (x : Reg) (nn : Byte)
  | sneI (x : Reg) (nn : Byte)
  | seR (x y : Reg)
  | ldI (x : Reg) (nn : Byte)
  | addI (x : Reg) (nn : Byte)
  | ldR (x y : Reg)
  | orR (x y : Reg)
  | andR (x y : Reg)
  | xorR (x y : Reg)
  | addR (x y : Reg)
  | sub (x y : Reg)
  | shr (x y : Reg)
  | subn (x y : Reg)
  | shl (x y : Reg)
  | sneR (x y : Reg)
  | ldIdx (nnn : BitVec 12)
  | jpV0 (nnn : BitVec 12)
  | rnd (x : Reg) (nn : Byte)
  | drw (x y : Reg) (n : Nat)
  | skp (x : Reg)
  | sknp (x : Reg)
  | ldGetdt (x : Reg)
  | ldKey (x : Reg)
  | ldSetdt (x : Reg)
  | ldSetst (x : Reg)
  | addIdx (x : Reg)
  | ldGlyph (x : Reg)
  | bcd (x : Reg)
  | stm (x : Reg)
  | ldm (x : Reg)
  deriving DecidableEq, Repr, Inhabited

end Sys2Proof
end

