-- ==== Sys2Proof/WellFormed.lean ====
section
/-!
DEFINITION. Which instruction terms an opcode can spell. Register numbers and immediates carry their bounds in their types;
the one field held as a plain number is the row count N of `DXYN`, a field of four bits (spec/30_encoding.md R51, R53).
-/

namespace Sys2Proof

/-- The term is one an opcode spells: the count N of `DXYN` is 0 to 15 (R51, R53). -/
def Instr.wellFormed : Instr → Bool
  | .cls => true
  | .ret => true
  | .jp _ => true
  | .call _ => true
  | .seI _ _ => true
  | .sneI _ _ => true
  | .seR _ _ => true
  | .ldI _ _ => true
  | .addI _ _ => true
  | .ldR _ _ => true
  | .orR _ _ => true
  | .andR _ _ => true
  | .xorR _ _ => true
  | .addR _ _ => true
  | .sub _ _ => true
  | .shr _ _ => true
  | .subn _ _ => true
  | .shl _ _ => true
  | .sneR _ _ => true
  | .ldIdx _ => true
  | .jpV0 _ => true
  | .rnd _ _ => true
  | .drw _ _ n => decide (n ≤ 15)
  | .skp _ => true
  | .sknp _ => true
  | .ldGetdt _ => true
  | .ldKey _ => true
  | .ldSetdt _ => true
  | .ldSetst _ => true
  | .addIdx _ => true
  | .ldGlyph _ => true
  | .bcd _ => true
  | .stm _ => true
  | .ldm _ => true

end Sys2Proof
end

