-- ==== Sys2Proof/Decode.lean ====
section
/-!
DEFINITION. Decoding and encoding (spec/30_encoding.md R50 to R59): the byte order of an instruction word, the fields, the
two-level decoder (family nibble, then the fixed nibbles of the family), and the encoder written from R59's table.
-/

namespace Sys2Proof

/-- The word whose high byte stands first: instruction words are big-endian (R33, R50). -/
def wordOfBytes (hi lo : Byte) : Word := BitVec.ofNat 16 (hi.toNat * 256 + lo.toNat)

/-- The two bytes of a word in memory order, high byte first (R33). -/
def bytesOfWord (w : Word) : List Byte := [BitVec.ofNat 8 (w.toNat / 256), BitVec.ofNat 8 w.toNat]

/-- The family F, bits 15 to 12 (R51). -/
def opFamily (op : Word) : Nat := op.toNat / 4096

/-- The field X, bits 11 to 8, a register number (R51). -/
def opX (op : Word) : Reg := Fin.ofNat 16 (op.toNat / 256)

/-- The field Y, bits 7 to 4, a register number (R51). -/
def opY (op : Word) : Reg := Fin.ofNat 16 (op.toNat / 16)

/-- The field N, bits 3 to 0, a count (R51). -/
def opN (op : Word) : Nat := op.toNat % 16

/-- The field NN, bits 7 to 0 (R51). -/
def opNN (op : Word) : Byte := BitVec.ofNat 8 op.toNat

/-- The field NNN, bits 11 to 0 (R51). -/
def opNNN (op : Word) : BitVec 12 := BitVec.ofNat 12 op.toNat

/-- Family 0: all twelve lower bits are compared (R54, D8). -/
def decodeFamily0 (nnn : Nat) : Option Instr :=
  match nnn with
  | 0x0E0 => some .cls
  | 0x0EE => some .ret
  | _ => none

/-- Families 5 and 9: the low nibble must be 0 (R54, D8). -/
def decodeLowZero (i : Instr) (n : Nat) : Option Instr :=
  match n with
  | 0x0 => some i
  | _ => none

/-- Family 8: the low nibble selects the operation (R54, R55). -/
def decodeFamily8 (x y : Reg) (n : Nat) : Option Instr :=
  match n with
  | 0x0 => some (.ldR x y)
  | 0x1 => some (.orR x y)
  | 0x2 => some (.andR x y)
  | 0x3 => some (.xorR x y)
  | 0x4 => some (.addR x y)
  | 0x5 => some (.sub x y)
  | 0x6 => some (.shr x y)
  | 0x7 => some (.subn x y)
  | 0xE => some (.shl x y)
  | _ => none

/-- Family E: the low byte selects the operation (R54, R55). -/
def decodeFamilyE (x : Reg) (nn : Nat) : Option Instr :=
  match nn with
  | 0x9E => some (.skp x)
  | 0xA1 => some (.sknp x)
  | _ => none

/-- Family F: the low byte selects the operation (R54, R55). -/
def decodeFamilyF (x : Reg) (nn : Nat) : Option Instr :=
  match nn with
  | 0x07 => some (.ldGetdt x)
  | 0x0A => some (.ldKey x)
  | 0x15 => some (.ldSetdt x)
  | 0x18 => some (.ldSetst x)
  | 0x1E => some (.addIdx x)
  | 0x29 => some (.ldGlyph x)
  | 0x33 => some (.bcd x)
  | 0x55 => some (.stm x)
  | 0x65 => some (.ldm x)
  | _ => none

/-- The dispatch multiplexer (R54, R72): the instruction an opcode spells, none where it is invalid (R56). A pure function
of the 16 bits. -/
def decodeWord (op : Word) : Option Instr :=
  match opFamily op with
  | 0x0 => decodeFamily0 (opNNN op).toNat
  | 0x1 => some (.jp (opNNN op))
  | 0x2 => some (.call (opNNN op))
  | 0x3 => some (.seI (opX op) (opNN op))
  | 0x4 => some (.sneI (opX op) (opNN op))
  | 0x5 => decodeLowZero (.seR (opX op) (opY op)) (opN op)
  | 0x6 => some (.ldI (opX op) (opNN op))
  | 0x7 => some (.addI (opX op) (opNN op))
  | 0x8 => decodeFamily8 (opX op) (opY op) (opN op)
  | 0x9 => decodeLowZero (.sneR (opX op) (opY op)) (opN op)
  | 0xA => some (.ldIdx (opNNN op))
  | 0xB => some (.jpV0 (opNNN op))
  | 0xC => some (.rnd (opX op) (opNN op))
  | 0xD => some (.drw (opX op) (opY op) (opN op))
  | 0xE => decodeFamilyE (opX op) (opNN op).toNat
  | 0xF => decodeFamilyF (opX op) (opNN op).toNat
  | _ => none

/-- Why a sequence of bytes is no instruction. -/
inductive DecodeReject where
  /-- The opcode matches no pattern (R56); carries it. -/
  | invalidOpcode (op : Word)
  /-- Fewer than two bytes are left: an instruction is one 16-bit word (R50). -/
  | truncated
  deriving DecidableEq, Repr

/-- Reads one instruction from the front of any bytes: the instruction and the bytes after it, or the reason there is
none. -/
def decode : List Byte → Except DecodeReject (Instr × List Byte)
  | hi :: lo :: rest =>
    match decodeWord (wordOfBytes hi lo) with
    | some i => .ok (i, rest)
    | none => .error (.invalidOpcode (wordOfBytes hi lo))
  | _ => .error .truncated

/-- The number an instruction is encoded as, from R59's table. -/
def encodeNat : Instr → Nat
  | .cls => 0x00E0
  | .ret => 0x00EE
  | .jp nnn => 0x1000 + nnn.toNat
  | .call nnn => 0x2000 + nnn.toNat
  | .seI x nn => 0x3000 + x.val * 256 + nn.toNat
  | .sneI x nn => 0x4000 + x.val * 256 + nn.toNat
  | .seR x y => 0x5000 + x.val * 256 + y.val * 16
  | .ldI x nn => 0x6000 + x.val * 256 + nn.toNat
  | .addI x nn => 0x7000 + x.val * 256 + nn.toNat
  | .ldR x y => 0x8000 + x.val * 256 + y.val * 16
  | .orR x y => 0x8001 + x.val * 256 + y.val * 16
  | .andR x y => 0x8002 + x.val * 256 + y.val * 16
  | .xorR x y => 0x8003 + x.val * 256 + y.val * 16
  | .addR x y => 0x8004 + x.val * 256 + y.val * 16
  | .sub x y => 0x8005 + x.val * 256 + y.val * 16
  | .shr x y => 0x8006 + x.val * 256 + y.val * 16
  | .subn x y => 0x8007 + x.val * 256 + y.val * 16
  | .shl x y => 0x800E + x.val * 256 + y.val * 16
  | .sneR x y => 0x9000 + x.val * 256 + y.val * 16
  | .ldIdx nnn => 0xA000 + nnn.toNat
  | .jpV0 nnn => 0xB000 + nnn.toNat
  | .rnd x nn => 0xC000 + x.val * 256 + nn.toNat
  | .drw x y n => 0xD000 + x.val * 256 + y.val * 16 + n
  | .skp x => 0xE09E + x.val * 256
  | .sknp x => 0xE0A1 + x.val * 256
  | .ldGetdt x => 0xF007 + x.val * 256
  | .ldKey x => 0xF00A + x.val * 256
  | .ldSetdt x => 0xF015 + x.val * 256
  | .ldSetst x => 0xF018 + x.val * 256
  | .addIdx x => 0xF01E + x.val * 256
  | .ldGlyph x => 0xF029 + x.val * 256
  | .bcd x => 0xF033 + x.val * 256
  | .stm x => 0xF055 + x.val * 256
  | .ldm x => 0xF065 + x.val * 256

/-- The opcode of an instruction (R55, R59). -/
def encode (i : Instr) : Word := BitVec.ofNat 16 (encodeNat i)

/-- The two bytes of an instruction in memory order (R33). -/
def encodeBytes (i : Instr) : List Byte := bytesOfWord (encode i)

/-- The opcode map of R55 as mask and match, row by row. -/
def opcodeMap : List (Word × Word) :=
  [(0xFFFF, 0x00E0), (0xFFFF, 0x00EE), (0xF000, 0x1000), (0xF000, 0x2000), (0xF000, 0x3000), (0xF000, 0x4000),
   (0xF00F, 0x5000), (0xF000, 0x6000), (0xF000, 0x7000)] ++
  [(0xF00F, 0x8000), (0xF00F, 0x8001), (0xF00F, 0x8002), (0xF00F, 0x8003), (0xF00F, 0x8004), (0xF00F, 0x8005),
   (0xF00F, 0x8006), (0xF00F, 0x8007), (0xF00F, 0x800E), (0xF00F, 0x9000)] ++
  [(0xF000, 0xA000), (0xF000, 0xB000), (0xF000, 0xC000), (0xF000, 0xD000), (0xF0FF, 0xE09E), (0xF0FF, 0xE0A1)] ++
  [(0xF0FF, 0xF007), (0xF0FF, 0xF00A), (0xF0FF, 0xF015), (0xF0FF, 0xF018), (0xF0FF, 0xF01E), (0xF0FF, 0xF029),
   (0xF0FF, 0xF033), (0xF0FF, 0xF055), (0xF0FF, 0xF065)]

/-- The host's reading of one opcode-table row: the instruction the decoder reads from the bits `w` of a word of `nbits`
bits, laid out in memory order. -/
def decodeTableWord (nbits w : Nat) : Option Instr :=
  match decode (bytesOfWord (BitVec.ofNat 16 (w % 2 ^ nbits))) with
  | .ok (i, _) => some i
  | .error _ => none

end Sys2Proof
end

