-- ==== Sys2Proof/Config.lean ====
section
/-!
DEFINITION. The open parameters of spec/00_scope.md R4: `GLYPHS`, `INVALID_OPCODE_POLICY` and the free byte of `CXNN` are
constants without a body, so nothing can be proved of their values (notes/assumptions/2.md, 3.md, 4.md). Every other
parameter of R4 is fixed and stands as a literal in the type or the definition that uses it: 4096 bytes of memory, ROM base
0x200, at most 3584 bytes of ROM, 16 registers, 16 stack slots, 16 keys, a display of 64 by 32, 5 bytes a glyph.
-/

namespace Sys2Proof.Config

/-- The two values `INVALID_OPCODE_POLICY` may take (R151). -/
inductive InvalidOpcodePolicy where
  /-- The reference behaviour: report and change nothing. -/
  | stall
  /-- Report and latch the fault. -/
  | fault
  deriving DecidableEq, Repr, Inhabited

/-- `INVALID_OPCODE_POLICY`, OPEN in the spec (R4, R151, D7): no value is assumed. DESIGN CHOICE of form (log 2). -/
opaque invalidOpcodePolicy : InvalidOpcodePolicy

/-- `GLYPHS`, OPEN in the spec (R4, R27, D13): 80 bytes, no value is assumed (log 3). -/
opaque glyphs : Vector Byte 80

/-- The free bytes the environment offers to `CXNN`, one for each draw (R147, D12, U8): no value is assumed (log 4). -/
opaque freeByte : Nat → Byte

/-- R27's default value of `GLYPHS`. PRESUMED: the spec marks it as general knowledge (G1). The machine does not use it; it
stands here so that a reader who fixes `glyphs` has the spec's default (log 3). -/
def defaultGlyphs : Vector Byte 80 := #v[
  0xF0, 0x90, 0x90, 0x90, 0xF0,  0x20, 0x60, 0x20, 0x20, 0x70,
  0xF0, 0x10, 0xF0, 0x80, 0xF0,  0xF0, 0x10, 0xF0, 0x10, 0xF0,
  0x90, 0x90, 0xF0, 0x10, 0x10,  0xF0, 0x80, 0xF0, 0x10, 0xF0,
  0xF0, 0x80, 0xF0, 0x90, 0xF0,  0xF0, 0x10, 0x20, 0x40, 0x40,
  0xF0, 0x90, 0xF0, 0x90, 0xF0,  0xF0, 0x90, 0xF0, 0x10, 0xF0,
  0xF0, 0x90, 0xF0, 0x90, 0x90,  0xE0, 0x90, 0xE0, 0x90, 0xE0,
  0xF0, 0x80, 0x80, 0x80, 0xF0,  0xE0, 0x90, 0x90, 0x90, 0xE0,
  0xF0, 0x80, 0xF0, 0x80, 0xF0,  0xF0, 0x80, 0xF0, 0x80, 0x80]

end Sys2Proof.Config
end

