-- ==== Sys2Proof/Machine/State.lean ====
section
/-!
DEFINITION. The state of the machine as plain data (spec/10_state.md R10 to R26), the reasons a step can stop, and the state
after reset. The field names are the spec's.
-/

namespace Sys2Proof.Machine

/-- Memory as a list of (address, byte) pairs: addresses strictly rising, no entry equal to what an unlisted address reads
as (`Memory.wf`). An unlisted address reads as its reset contents (`Memory.unlisted`, R26). -/
abbrev Memory := List Host.Cell

/-- The display buffer, 2048 one-bit pixels at flat index `x + 64*y` (R20). -/
abbrev Display := Vector Bool 2048

/-- The synchronous exceptional conditions with their recorded values (spec/60_exceptions.md R150). The same type is what the
latch holds and what a step of a stopped machine reports (R157). Each is SAFE: the machine stops where the source document
gives no behaviour (decisions D1, D2, D5, D6, D7). -/
inductive Fault where
  /-- Code 1, raised by decode: the opcode matches no pattern. Latched only under the policy `fault` (R151). -/
  | invalidOpcode (op : Word)
  /-- Code 2, raised by fetch when `PC > 0xFFE`; records `PC` (R152). -/
  | fetchOutOfRange (pc : Word)
  /-- Code 3, raised by `DXYN`, `FX33`, `FX55`, `FX65`; records the highest address, an unbounded number (R153). -/
  | memoryOutOfRange (addr : Nat)
  /-- Code 4, raised by `2NNN` when `SP = 16`; records `PC` (R154). -/
  | stackOverflow (pc : Word)
  /-- Code 5, raised by `00EE` when `SP = 0`; records `PC` (R155). -/
  | stackUnderflow (pc : Word)
  /-- Code 6, raised by `EX9E`, `EXA1` when `V[X] > 15`; records `V[X]` (R156). -/
  | keyIndexOutOfRange (v : Byte)
  deriving DecidableEq, Repr

/-- Why a step or a host operation has no meaning. -/
inductive Refusal where
  /-- An instruction that has no meaning in this model; raised by no arm of `exec`. SAFE. -/
  | notModelled (mnemonic : String)
  /-- Raised by `step` and by every host operation but `reset_and_load` while `loaded` is false: the state has no defined
  value then (R24, R70, R174, D17). SAFE. -/
  | notLoaded
  deriving DecidableEq, Repr

/-- The whole state (R10 to R25). `draws` is the model's own field, not the spec's: the byte `rand` of a step is an argument and no
field (R9, notes/assumptions/4.md). -/
structure State where
  /-- The general registers V0 to VF (R10); VF is also the flag (R11). -/
  V : Vector Byte 16
  /-- The index register (R13). -/
  I : Word
  /-- The program counter: all through a step, the address of the instruction being executed (R14). -/
  PC : Word
  /-- The slots of the call stack (R16). -/
  S : Vector Word 16
  /-- The number of stack entries in use, 0 to 16 (R16, R18). -/
  SP : Fin 17
  /-- The key states, true where pressed (R19). -/
  K : Vector Bool 16
  /-- The display buffer (R20). -/
  FB : Display
  /-- The display has changed since the host last drained it (R21). -/
  dirty : Bool
  /-- The delay timer (R22). -/
  DT : Byte
  /-- The sound timer (R22). -/
  ST : Byte
  /-- The 4096 bytes of memory (R23). -/
  mem : Memory
  /-- A load has succeeded and none has failed since (R24). -/
  loaded : Bool
  /-- The fault latch (R24, R157). -/
  fault : Option Fault
  /-- The model's own: how many free bytes a run of `step` has drawn, so the number of the next one (log 4). -/
  draws : Nat
  deriving DecidableEq, Repr

/-- The state right after `reset_and_load` of an empty ROM (R26, R170): every element at R26's value. The count of
free bytes drawn is the model's own, DESIGN CHOICE (log 4). -/
def State.reset : State where
  V := Vector.replicate 16 0
  I := 0
  PC := 0x200
  S := Vector.replicate 16 0
  SP := 0
  K := Vector.replicate 16 false
  FB := Vector.replicate 2048 false
  dirty := true
  DT := 0
  ST := 0
  mem := []
  loaded := true
  fault := none
  draws := 0

end Sys2Proof.Machine
end

