-- ==== Sys2Proof/Machine/Ops.lean ====
section
/-!
DEFINITION. The shared operations: reading and writing one byte of memory, fetch, the ways an instruction moves `PC`, push
and pop, the timer post-step, the free byte, and taking a fault. There is no return from a fault (spec/60_exceptions.md
R158): the way out is `resetAndLoad` of HostOps.
-/

namespace Sys2Proof.Machine

/-- What an instruction's meaning answers. -/
abbrev Result := Host.Outcome State Fault Refusal

/-- What an address nothing has written reads as: the reset contents, the glyph table at 0x000 to 0x04F and 0 elsewhere
(R26, R27, R31). -/
def Memory.unlisted (a : Nat) : Byte :=
  if h : a < 80 then Config.glyphs[a] else 0

/-- `MemRead(a, 1)` (R39). Total; the range checks of R37 and R38 keep every use inside 0x000 to 0xFFF (log 8). -/
def Memory.read : Memory → Nat → Byte
  | [], a => Memory.unlisted a
  | (c, b) :: rest, a => if c = a then b else Memory.read rest a

/-- `MemWrite(a, 1, b)` (R39), keeping the canonical form: the list stays sorted, and writing what an unlisted address reads
as removes the entry. -/
def Memory.write : Memory → Nat → Byte → Memory
  | [], a, b => if b = Memory.unlisted a then [] else [(a, b)]
  | (c, d) :: rest, a, b =>
    if c < a then (c, d) :: Memory.write rest a b
    else
      let tail := if c = a then rest else (c, d) :: rest
      if b = Memory.unlisted a then tail else (a, b) :: tail

/-- The canonical form above a lower bound: rising addresses below 4096, no entry an unlisted address already reads as. -/
def Memory.wfFrom (lo : Nat) : Memory → Bool
  | [] => true
  | (a, b) :: rest =>
    decide (lo ≤ a) && decide (a < 4096) && decide (b ≠ Memory.unlisted a) && Memory.wfFrom (a + 1) rest

/-- Memory is in canonical form. -/
def Memory.wf (m : Memory) : Bool := Memory.wfFrom 0 m

/-- The `n` bytes from address `a` on, each read by itself (R34). -/
def Memory.readBytes (m : Memory) (a : Nat) : Nat → List Byte
  | 0 => []
  | n + 1 => Memory.read m a :: Memory.readBytes m (a + 1) n

/-- Stores bytes from address `a` on, one by one, the lowest address first (R34, R113, R114). -/
def Memory.writeBytes (m : Memory) (a : Nat) : List Byte → Memory
  | [] => m
  | b :: bs => Memory.writeBytes (Memory.write m a b) (a + 1) bs

/-- The highest address a fetch can start at: both bytes must be addresses (R38). -/
def fetchLimit : Nat := 0xFFE

/-- The opcode at `PC`: the bytes at `PC` and `PC + 1`, the first one the high byte (R33, R71). -/
def State.fetchWord (s : State) : Word :=
  wordOfBytes (s.mem.read s.PC.toNat) (s.mem.read (s.PC.toNat + 1))

/-- TAKING A FAULT (R157): the latch holds the cause with its recorded value; nothing else changes, so `PC` still addresses
the instruction and the timers have not ticked. -/
def State.raise (s : State) (f : Fault) : State := { s with fault := some f }

/-- The cause code of a fault (R150). -/
def Fault.code : Fault → Nat
  | .invalidOpcode _ => 1
  | .fetchOutOfRange _ => 2
  | .memoryOutOfRange _ => 3
  | .stackOverflow _ => 4
  | .stackUnderflow _ => 5
  | .keyIndexOutOfRange _ => 6

/-- The value recorded with a fault (R150). -/
def Fault.info : Fault → Nat
  | .invalidOpcode op => op.toNat
  | .fetchOutOfRange pc => pc.toNat
  | .memoryOutOfRange a => a
  | .stackOverflow pc => pc.toNat
  | .stackUnderflow pc => pc.toNat
  | .keyIndexOutOfRange v => v.toNat

/-- What an invalid opcode does under a policy (R151): `stall` changes nothing, `fault` latches. -/
def State.takeInvalidOpcode (s : State) (p : Config.InvalidOpcodePolicy) (op : Word) : State :=
  match p with
  | .stall => s
  | .fault => s.raise (.invalidOpcode op)

/-- The ordinary class of `PC` update: `(PC + 2) mod 65536` (R73). -/
def State.advance (s : State) : State := { s with PC := s.PC + 2 }

/-- The skip class of `PC` update: plus 4 where the condition holds, else plus 2, modulo 65536 (R73). -/
def State.skipIf (s : State) (c : Bool) : State := { s with PC := if c then s.PC + 4 else s.PC + 2 }

/-- The jump class of `PC` update (R73). -/
def State.jumpTo (s : State) (target : Word) : State := { s with PC := target }

/-- Push where a slot is free, `SP <= 15`: `S[SP] <- a; SP <- SP + 1` (R17). -/
def State.push (s : State) (a : Word) (h : s.SP.val < 16) : State :=
  { s with S := s.S.set s.SP.val a, SP := ⟨s.SP.val + 1, Nat.add_lt_add_right h 1⟩ }

/-- Pop where an entry is in use, `SP >= 1`: the value popped and the state with `SP` one less; the slot keeps its value
(R17). -/
def State.pop (s : State) (h : 0 < s.SP.val) : Word × State :=
  (s.S[s.SP.val - 1]'(Nat.sub_lt_right_of_lt_add h s.SP.isLt),
   { s with SP := ⟨s.SP.val - 1, Nat.lt_of_le_of_lt (Nat.sub_le _ _) s.SP.isLt⟩ })

/-- One timer after a tick: one less where above 0; a timer at 0 stays at 0 (R22, R102). -/
def tickTimer (t : Byte) : Byte := if t = 0 then 0 else t - 1

/-- The timer post-step: both timers tick, independently (R74). -/
def State.tick (s : State) : State := { s with DT := tickTimer s.DT, ST := tickTimer s.ST }

/-- What follows an instruction in its step: the post-step where it completed, nothing where it raised a fault (R70, R74). -/
def State.postStep (s : State) : State :=
  match s.fault with
  | none => s.tick
  | some _ => s

/-- `postStep` on what `exec` answers. -/
def finishStep : Result → Result
  | .next s => .next s.postStep
  | .fault f => .fault f
  | .refused r => .refused r

/-- The byte the environment offers for the next draw of a run of `step`; nothing is known of it (R147, log 4). -/
def State.nextFreeByte (s : State) : Byte := Config.freeByte s.draws

/-- One free byte has been drawn, so that the next draw reads another (R101, log 4). -/
def State.countDraw (s : State) : State := { s with draws := s.draws + 1 }

/-- The machine made ready to fetch the word `w` of `nbits` bits in its very next step: the word stands at `PC` (at the ROM
base where `PC` is no address to fetch from), a program is loaded, and no fault is latched. -/
def State.placeFetchWord (s : State) (nbits w : Nat) : State :=
  let pc : Word := if fetchLimit < s.PC.toNat then 0x200 else s.PC
  { s with
    PC := pc
    mem := s.mem.writeBytes pc.toNat (bytesOfWord (BitVec.ofNat 16 (w % 2 ^ nbits)))
    loaded := true
    fault := none }

end Sys2Proof.Machine
end

