-- ==== Sys2Proof/Machine/Operands.lean ====
section
/-!
DEFINITION. The operand forms (spec/30_encoding.md R53, spec/43_index_memory.md): a register read or written, a block of
registers V0 to VX, the three immediates zero-extended, and memory reached through `I` with the range test of
spec/20_memory.md R37.
-/

namespace Sys2Proof.Machine

/-- Read of general register `x` (R7, R10). -/
def State.reg (s : State) (x : Reg) : Byte := s.V[x.val]

/-- Write of general register `x`; no register is hardwired (R10). -/
def State.setReg (s : State) (x : Reg) (b : Byte) : State := { s with V := s.V.set x.val b }

/-- Write of the index register (R13). -/
def State.setIndex (s : State) (a : Word) : State := { s with I := a }

/-- `NNN` as a 16-bit word, zero-extended (R53). -/
def immAddress (nnn : BitVec 12) : Word := nnn.zeroExtend 16

/-- A register's byte as a 16-bit word, zero-extended (R111). -/
def byteAsWord (b : Byte) : Word := b.zeroExtend 16

/-- The registers V0 to VX in order, the bytes `FX55` stores (R114). -/
def State.regBlock (s : State) (x : Reg) : List Byte := s.V.toList.take (x.val + 1)

/-- Registers `j`, `j + 1`, ... take the listed bytes in order; bytes past VF are not used. -/
def setRegsFrom (v : Vector Byte 16) (j : Nat) : List Byte → Vector Byte 16
  | [] => v
  | b :: bs => setRegsFrom (v.setIfInBounds j b) (j + 1) bs

/-- The number of bytes a block transfer V0 to VX moves (R114, R115). -/
def blockLength (x : Reg) : Nat := x.val + 1

/-- The highest address of an access to `n` bytes from `I` on, on unbounded naturals, for `n > 0` (R37). -/
def State.lastAddress (s : State) (n : Nat) : Nat := s.I.toNat + n - 1

/-- The access to `n` bytes from `I` on stays inside memory; an access to no byte always does (R37). -/
def State.inRange (s : State) (n : Nat) : Bool := n == 0 || decide (s.lastAddress n < 4096)

/-- An instruction that accesses `n` bytes from `I` on: it raises `MemoryOutOfRange` with the highest address where the range
leaves memory, before any access, and otherwise takes effect (R37, R153). -/
def State.accessing (s : State) (n : Nat) (effect : State) : State :=
  if s.inRange n then effect else s.raise (.memoryOutOfRange (s.lastAddress n))

/-- The index register after a block transfer: `(I + X + 1) mod 65536` (R114, R115). -/
def State.indexAfterBlock (s : State) (x : Reg) : Word := s.I + BitVec.ofNat 16 (blockLength x)

/-- The lowest pressed key (R132). -/
def lowestPressed (k : Vector Bool 16) : Option Reg := (List.finRange 16).find? fun j => k[j.val]

end Sys2Proof.Machine
end

