-- ==== Sys2Proof/Machine/Flags.lean ====
section
/-!
DEFINITION. The results and flags of the ALU (spec/42_alu.md R102) and what a flag writer leaves in VF (spec/10_state.md
R11). Sums and differences are taken exactly on numbers and narrowed at the end.
-/

namespace Sys2Proof.Machine

/-- A flag as the byte VF holds: 1 where it holds, else 0 (R11). -/
def flagByte (c : Bool) : Byte := if c then 1 else 0

/-- `(a + b) mod 256` (R91, R96, R102). -/
def addBytes (a b : Byte) : Byte := BitVec.ofNat 8 (a.toNat + b.toNat)

/-- The carry of an 8-bit add: 1 where `a + b > 255` (R96). -/
def carryFlag (a b : Byte) : Byte := flagByte (decide (255 < a.toNat + b.toNat))

/-- `(a - b) mod 256`, the residue in 0 to 255 (R97, R102). -/
def subBytes (a b : Byte) : Byte := BitVec.ofInt 8 ((a.toNat : Int) - (b.toNat : Int))

/-- The inverted borrow of `a - b`: 0 where `b > a`, else 1 (R97, R99). -/
def noBorrowFlag (a b : Byte) : Byte := flagByte (!decide (a.toNat < b.toNat))

/-- `a >> 1`, bit 7 becomes 0 (R98). -/
def shiftRightByte (a : Byte) : Byte := BitVec.ofNat 8 (a.toNat / 2)

/-- The bit a right shift moves out, `a & 1` (R98). -/
def lowBitFlag (a : Byte) : Byte := BitVec.ofNat 8 (a.toNat % 2)

/-- `(a << 1) mod 256`, bit 0 becomes 0 (R100). -/
def shiftLeftByte (a : Byte) : Byte := BitVec.ofNat 8 (2 * a.toNat)

/-- The bit a left shift moves out, `a >> 7` (R100). -/
def highBitFlag (a : Byte) : Byte := BitVec.ofNat 8 (a.toNat / 128)

/-- A flag writer whose row names the result first: VX takes the result, then VF the flag, so VF ends as the flag where X is F
(`8XY4`; R76, R96). -/
def State.resultThenFlag (s : State) (x : Reg) (result flag : Byte) : State :=
  (s.setReg x result).setReg VF flag

/-- A flag writer whose row names the flag first: VF takes the flag, then VX the result, so VF ends as the result where X is F
(`8XY5`, `8XY6`, `8XY7`, `8XYE`; R76, D9, log 7). -/
def State.flagThenResult (s : State) (x : Reg) (flag result : Byte) : State :=
  (s.setReg VF flag).setReg x result

/-- The three decimal digits of a byte, hundreds first (R102, R113). -/
def decimalDigits (a : Byte) : List Byte :=
  [BitVec.ofNat 8 (a.toNat / 100), BitVec.ofNat 8 (a.toNat / 10 % 10), BitVec.ofNat 8 (a.toNat % 10)]

end Sys2Proof.Machine
end

