-- ==== Sys2Proof/Machine/Alu.lean ====
section
/-!
DEFINITION. Register loads and the ALU (spec/42_alu.md R90 to R102). Operands are read from the state at the start of the
step, before any write (R76); every instruction here ends with `PC + 2`.
-/

namespace Sys2Proof.Machine

/-- `6XNN`: `V[X] <- NN` (R90). -/
def execLdI (x : Reg) (nn : Byte) (s : State) : Result := .next (s.setReg x nn).advance

/-- `7XNN`: `V[X] <- (V[X] + NN) mod 256`, no flag (R91). -/
def execAddI (x : Reg) (nn : Byte) (s : State) : Result := .next (s.setReg x (addBytes (s.reg x) nn)).advance

/-- `8XY0`: `V[X] <- V[Y]` (R92). -/
def execLdR (x y : Reg) (s : State) : Result := .next (s.setReg x (s.reg y)).advance

/-- `8XY1`: bitwise or, VF not written (R93). -/
def execOrR (x y : Reg) (s : State) : Result := .next (s.setReg x (s.reg x ||| s.reg y)).advance

/-- `8XY2`: bitwise and, VF not written (R94). -/
def execAndR (x y : Reg) (s : State) : Result := .next (s.setReg x (s.reg x &&& s.reg y)).advance

/-- `8XY3`: bitwise exclusive or, VF not written (R95). -/
def execXorR (x y : Reg) (s : State) : Result := .next (s.setReg x (s.reg x ^^^ s.reg y)).advance

/-- `8XY4`: the sum, then the carry in VF (R96). -/
def execAddR (x y : Reg) (s : State) : Result :=
  .next (s.resultThenFlag x (addBytes (s.reg x) (s.reg y)) (carryFlag (s.reg x) (s.reg y))).advance

/-- `8XY5`: the inverted borrow in VF, then `V[X] - V[Y]` (R97). -/
def execSub (x y : Reg) (s : State) : Result :=
  .next (s.flagThenResult x (noBorrowFlag (s.reg x) (s.reg y)) (subBytes (s.reg x) (s.reg y))).advance

/-- `8XY6`: bit 0 in VF, then `V[X] >> 1`; the field Y is not used (R98). -/
def execShr (x _y : Reg) (s : State) : Result :=
  .next (s.flagThenResult x (lowBitFlag (s.reg x)) (shiftRightByte (s.reg x))).advance

/-- `8XY7`: the inverted borrow in VF, then `V[Y] - V[X]` (R99). -/
def execSubn (x y : Reg) (s : State) : Result :=
  .next (s.flagThenResult x (noBorrowFlag (s.reg y) (s.reg x)) (subBytes (s.reg y) (s.reg x))).advance

/-- `8XYE`: bit 7 in VF, then `V[X] << 1`; the field Y is not used (R100). -/
def execShl (x _y : Reg) (s : State) : Result :=
  .next (s.flagThenResult x (highBitFlag (s.reg x)) (shiftLeftByte (s.reg x))).advance

/-- `CXNN` in a step whose argument is the byte `rand`: `V[X] <- rand & NN` (R101, R147). -/
def execRndWith (rand : Byte) (x : Reg) (nn : Byte) (s : State) : Result :=
  .next (s.setReg x (rand &&& nn)).advance

/-- `CXNN` in a run that names no bytes: with the environment's next free byte, which is thereby drawn (R101, log 4). -/
def execRnd (x : Reg) (nn : Byte) (s : State) : Result := execRndWith s.nextFreeByte x nn s.countDraw

end Sys2Proof.Machine
end

