-- ==== Sys2Proof/Machine/Control.lean ====
section
/-!
DEFINITION. Control transfer (spec/41_control.md R80 to R87). `s.PC` is the address of the instruction itself (R14); the
timer post-step is added by `step`.
-/

namespace Sys2Proof.Machine

/-- `00EE`: pops the address of the call and goes two past it; `StackUnderflow` on an empty stack (R80). -/
def execRet (s : State) : Result :=
  .next <| if h : 0 < s.SP.val then (s.pop h).2.jumpTo ((s.pop h).1 + 2) else s.raise (.stackUnderflow s.PC)

/-- `1NNN`: `PC <- NNN` (R81). -/
def execJp (nnn : BitVec 12) (s : State) : Result := .next (s.jumpTo (immAddress nnn))

/-- `2NNN`: pushes the unadvanced `PC`, then `PC <- NNN`; `StackOverflow` on a full stack (R82). -/
def execCall (nnn : BitVec 12) (s : State) : Result :=
  .next <| if h : s.SP.val < 16 then (s.push s.PC h).jumpTo (immAddress nnn)
    else s.raise (.stackOverflow s.PC)

/-- `BNNN`: `PC <- NNN + V[0]`, not reduced to 12 bits (R83). -/
def execJpV0 (nnn : BitVec 12) (s : State) : Result :=
  .next (s.jumpTo (immAddress nnn + byteAsWord (s.reg 0)))

/-- `3XNN`: skips where `V[X] = NN` (R84). -/
def execSeI (x : Reg) (nn : Byte) (s : State) : Result := .next (s.skipIf (decide (s.reg x = nn)))

/-- `4XNN`: skips where `V[X] != NN` (R85). -/
def execSneI (x : Reg) (nn : Byte) (s : State) : Result := .next (s.skipIf (decide (s.reg x ≠ nn)))

/-- `5XY0`: skips where `V[X] = V[Y]` (R86). -/
def execSeR (x y : Reg) (s : State) : Result := .next (s.skipIf (decide (s.reg x = s.reg y)))

/-- `9XY0`: skips where `V[X] != V[Y]` (R87). -/
def execSneR (x y : Reg) (s : State) : Result := .next (s.skipIf (decide (s.reg x ≠ s.reg y)))

end Sys2Proof.Machine
end

