-- ==== Sys2Proof/Machine/Display.lean ====
section
/-!
DEFINITION. The display instructions and the collision detector (spec/44_display.md R120 to R123).
-/

namespace Sys2Proof.Machine

/-- The flat index of the pixel at column `x`, row `y`, each reduced at the display's edge (R20, R122, D4, log 6). -/
def pixelIndex (x y : Nat) : Fin 2048 :=
  ⟨x % 64 + 64 * (y % 32), by
    have hx : x % 64 < 64 := Nat.mod_lt _ (by decide)
    have hy : y % 32 < 32 := Nat.mod_lt _ (by decide)
    show x % 64 + 64 * (y % 32) < 2048
    omega⟩

/-- `FB[x, y]` (R7, R20). -/
def Display.pixel (d : Display) (x y : Nat) : Bool := d[(pixelIndex x y).val]

/-- The display being drawn on and the collision flag so far (R121). -/
structure Drawing where
  /-- The display buffer so far. -/
  buffer : Display
  /-- A set pixel has been cleared (R123). -/
  collision : Bool
  deriving DecidableEq, Repr

/-- One set sprite bit: it collides with a set pixel, and the pixel is inverted (R121, R123). -/
def drawPixel (d : Drawing) (x y : Nat) : Drawing where
  collision := d.collision || d.buffer.pixel x y
  buffer := d.buffer.set (pixelIndex x y).val (!d.buffer.pixel x y)

/-- The pixel of bit `c` of a sprite row, counted from the left: bit 7 of the byte is the leftmost (R121). -/
def spriteBit (b : Byte) (c : Nat) : Bool := b.getLsbD (7 - c)

/-- One row of a sprite, its leftmost pixel at column `x`: its pixels from column `c` on (R121). -/
def drawColumns (b : Byte) (x y : Nat) (d : Drawing) : List Nat → Drawing
  | [] => d
  | c :: cs => drawColumns b x y (if spriteBit b c then drawPixel d (x + c) y else d) cs

/-- The eight columns of a sprite row (R121). -/
def spriteColumns : List Nat := [0, 1, 2, 3, 4, 5, 6, 7]

/-- The rows of a sprite, from row `y` down (R121). -/
def drawRows (x y : Nat) (d : Drawing) : List Byte → Drawing
  | [] => d
  | b :: bs => drawRows x (y + 1) (drawColumns b x y d spriteColumns) bs

/-- The whole sprite of `DXYN`: the `n` bytes at `I` on drawn with their top left corner at `(V[X], V[Y])` (R121). -/
def State.drawSprite (s : State) (x y : Reg) (n : Nat) : Drawing :=
  drawRows (s.reg x).toNat (s.reg y).toNat { buffer := s.FB, collision := false } (s.mem.readBytes s.I.toNat n)

/-- `00E0`: clears the display and sets `dirty` (R120). -/
def execCls (s : State) : Result :=
  .next { s with FB := Vector.replicate 2048 false, dirty := true }.advance

/-- `DXYN`: draws the sprite, puts the collision flag in VF, sets `dirty` (R121). -/
def execDrw (x y : Reg) (n : Nat) (s : State) : Result :=
  .next <| s.accessing n
    ({ s with FB := (s.drawSprite x y n).buffer, dirty := true }.setReg VF
      (flagByte (s.drawSprite x y n).collision)).advance

end Sys2Proof.Machine
end

