-- ==== Sys2Proof/Machine/IndexMemory.lean ====
section
/-!
DEFINITION. The index register, stores and the load (spec/43_index_memory.md R110 to R115). Bounds are tested on the whole
range before any access (R37); every instruction here ends with `PC + 2`.
-/

namespace Sys2Proof.Machine

/-- `ANNN`: `I <- NNN` (R110). -/
def execLdIdx (nnn : BitVec 12) (s : State) : Result := .next (s.setIndex (immAddress nnn)).advance

/-- `FX1E`: `I <- (I + V[X]) mod 65536`, no flag (R111). -/
def execAddIdx (x : Reg) (s : State) : Result := .next (s.setIndex (s.I + byteAsWord (s.reg x))).advance

/-- `FX29`: `I <- 5 * V[X]`, all eight bits of `V[X]` (R112). -/
def execLdGlyph (x : Reg) (s : State) : Result :=
  .next (s.setIndex (BitVec.ofNat 16 (5 * (s.reg x).toNat))).advance

/-- `FX33`: the decimal digits of `V[X]` at `I`, `I + 1`, `I + 2`; `I` is not changed (R113). -/
def execBcd (x : Reg) (s : State) : Result :=
  .next <| s.accessing 3 { s with mem := s.mem.writeBytes s.I.toNat (decimalDigits (s.reg x)) }.advance

/-- `FX55`: V0 to VX at `I` on, then `I <- (I + X + 1) mod 65536` (R114). -/
def execStm (x : Reg) (s : State) : Result :=
  .next <| s.accessing (blockLength x)
    { s with mem := s.mem.writeBytes s.I.toNat (s.regBlock x), I := s.indexAfterBlock x }.advance

/-- `FX65`: V0 to VX from `I` on, then `I <- (I + X + 1) mod 65536` (R115). -/
def execLdm (x : Reg) (s : State) : Result :=
  .next <| s.accessing (blockLength x)
    { s with
      V := setRegsFrom s.V 0 (s.mem.readBytes s.I.toNat (blockLength x))
      I := s.indexAfterBlock x }.advance

end Sys2Proof.Machine
end

