-- ==== Sys2Proof/Machine/KeypadTimers.lean ====
section
/-!
DEFINITION. Keypad and timer instructions (spec/45_keypad_timers.md R130 to R135).
-/

namespace Sys2Proof.Machine

/-- `EX9E`: skips where the key `V[X]` is pressed; `KeyIndexOutOfRange` where `V[X] > 15` (R130). -/
def execSkp (x : Reg) (s : State) : Result :=
  .next <| if h : (s.reg x).toNat < 16 then s.skipIf s.K[(s.reg x).toNat] else s.raise (.keyIndexOutOfRange (s.reg x))

/-- `EXA1`: skips where the key `V[X]` is not pressed; `KeyIndexOutOfRange` where `V[X] > 15` (R131). -/
def execSknp (x : Reg) (s : State) : Result :=
  .next <| if h : (s.reg x).toNat < 16 then s.skipIf (!s.K[(s.reg x).toNat])
    else s.raise (.keyIndexOutOfRange (s.reg x))

/-- `FX0A`: the lowest pressed key in `V[X]`; where no key is pressed nothing changes, `PC` included, so the next step runs it
again (R132). -/
def execLdKey (x : Reg) (s : State) : Result :=
  .next <| match lowestPressed s.K with
    | some k => (s.setReg x (BitVec.ofNat 8 k.val)).advance
    | none => s

/-- `FX07`: `V[X] <- DT`, the value before this step's tick (R133). -/
def execLdGetdt (x : Reg) (s : State) : Result := .next (s.setReg x s.DT).advance

/-- `FX15`: `DT <- V[X]`; the post-step of the same step ticks it (R134). -/
def execLdSetdt (x : Reg) (s : State) : Result := .next { s with DT := s.reg x }.advance

/-- `FX18`: `ST <- V[X]`; the post-step of the same step ticks it (R135). -/
def execLdSetst (x : Reg) (s : State) : Result := .next { s with ST := s.reg x }.advance

end Sys2Proof.Machine
end

