-- ==== Sys2Proof/Machine/Step.lean ====
section
/-!
DEFINITION. One step (spec/40_step_cycle.md R70): refuse where nothing is loaded, report the latched fault where there is
one, otherwise fetch, decode, execute and tick the timers.
-/

namespace Sys2Proof.Machine

/-- One step under an invalid-opcode policy, in which `run` executes the decoded instruction (R70, R151). A latched fault is
reported again and nothing changes (R157, notes/assumptions/1.md). -/
def stepBy (run : Instr → State → Result) (p : Config.InvalidOpcodePolicy) (s : State) : Result :=
  if s.loaded then
    match s.fault with
    | some f => .fault f
    | none =>
      if fetchLimit < s.PC.toNat then .next (s.raise (.fetchOutOfRange s.PC))
      else
        match decodeWord s.fetchWord with
        | none => .next (s.takeInvalidOpcode p s.fetchWord)
        | some i => finishStep (run i s)
  else .refused .notLoaded

/-- One step under an invalid-opcode policy. -/
def stepUnder (p : Config.InvalidOpcodePolicy) (s : State) : Host.Outcome State Fault Refusal := stepBy exec p s

/-- One step of the machine, under the policy it was configured with. -/
def step (s : State) : Host.Outcome State Fault Refusal := stepUnder Config.invalidOpcodePolicy s

/-- The state with the given instruction word where the next step fetches it (notes/assumptions/9.md). -/
def State.withFetchWord (s : State) (nbits w : Nat) : State := s.placeFetchWord nbits w

end Sys2Proof.Machine
end

