-- ==== Sys2Proof/Machine/HostOps.lean ====
section
/-!
DEFINITION. The operations of the host other than `step` (spec/46_host_operations.md R140 to R146, spec/70_reset_and_hazards.md
R170 to R174). While nothing is loaded only `resetAndLoad` has a meaning (R24, D17). They do not look at the fault latch: the
accessors keep working on a stopped machine (R157).
-/

namespace Sys2Proof.Machine

/-- The error `reset_and_load` gives its caller (R171). `LoadError::Unreadable` arises outside the core (R172) and is no value
of this type. -/
inductive LoadError where
  /-- The ROM is longer than 3584 bytes. -/
  | tooLarge
  deriving DecidableEq, Repr

/-- A host operation's answer where the machine is loaded; refused otherwise (R24, D17). -/
def State.whenLoaded {α : Type} (s : State) (a : α) : Except Refusal α :=
  if s.loaded then .ok a else .error .notLoaded

/-- `reset_and_load(rom)` (R170, R171): every element at its reset value with the ROM from 0x200 on, whatever the state was
(R173); a ROM that is too long leaves the machine not loaded (D23, log 5). The count of free bytes drawn is the
model's own and goes on, so that no byte comes twice (log 4). -/
def State.resetAndLoad (s : State) (rom : List Byte) : Except LoadError Unit × State :=
  if rom.length ≤ 3584 then
    (.ok (), { State.reset with
      mem := State.reset.mem.writeBytes 0x200 rom
      draws := s.draws })
  else (.error .tooLarge, { s with loaded := false })

/-- `set_key(k, pressed)`: `K[k] <- pressed`; a key index above 15 is no move of the host (R141, D22). -/
def State.setKey (s : State) (k : Fin 16) (pressed : Bool) : Except Refusal State :=
  s.whenLoaded { s with K := s.K.set k.val pressed }

/-- `take_frame()`: the display buffer as it is, and `dirty` cleared (R142). -/
def State.takeFrame (s : State) : Except Refusal (Display × State) :=
  s.whenLoaded (s.FB, { s with dirty := false })

/-- `is_dirty()` (R143). -/
def State.isDirty (s : State) : Except Refusal Bool := s.whenLoaded s.dirty

/-- `delay_timer()` (R144). -/
def State.delayTimer (s : State) : Except Refusal Byte := s.whenLoaded s.DT

/-- `sound_timer()` (R145). -/
def State.soundTimer (s : State) : Except Refusal Byte := s.whenLoaded s.ST

end Sys2Proof.Machine
end

