-- ==== Sys2Proof/Machine/Events.lean ====
section
/-!
DEFINITION. The machine with its host: what may happen at a step boundary, and runs of any finite sequence of it
(spec/46_host_operations.md R140, R146, R147; spec/00_scope.md R9).
-/

namespace Sys2Proof.Machine

/-- One move of the host (R140); a step comes with the byte `rand` the environment chose for it (R70, R147). -/
inductive Event where
  | step (rand : Byte)
  | setKey (k : Fin 16) (pressed : Bool)
  | takeFrame
  | isDirty
  | delayTimer
  | soundTimer
  | resetAndLoad (rom : List Byte)
  deriving DecidableEq, Repr

/-- `exec` with the step's argument `rand`, which only `CXNN` reads (R101, R147). -/
def execWith (rand : Byte) (i : Instr) (s : State) : Result :=
  match i with
  | .rnd x nn => execRndWith rand x nn s
  | other => exec other s

/-- `step(rand)` (R70): the byte is an argument of the step and no field of the machine (R9). -/
def State.stepWith (s : State) (rand : Byte) : Result := stepBy (execWith rand) Config.invalidOpcodePolicy s

/-- The state after a step's outcome; a step of a stopped machine changes nothing (R157). -/
def stateAfterStep (before : State) : Host.Outcome State Fault Refusal → Option State
  | .next t => some t
  | .fault _ => some before
  | .refused _ => none

/-- The state after an event, none where the event has no meaning (R24). -/
def State.after (s : State) : Event → Option State
  | .step r => stateAfterStep s (s.stepWith r)
  | .setKey k p => (s.setKey k p).toOption
  | .takeFrame => s.takeFrame.toOption.map Prod.snd
  | .isDirty => s.isDirty.toOption.map fun _ => s
  | .delayTimer => s.delayTimer.toOption.map fun _ => s
  | .soundTimer => s.soundTimer.toOption.map fun _ => s
  | .resetAndLoad rom => some (s.resetAndLoad rom).2

/-- The state after a sequence of events, none where one of them has no meaning. DESIGN CHOICE: a run ends where the finite list
does; the hardware defines no end of a run (R78, notes/assumptions/14.md). -/
def State.afterAll (s : State) : List Event → Option State
  | [] => some s
  | e :: es => (s.after e).bind fun t => State.afterAll t es

end Sys2Proof.Machine
end

