-- ==== Sys2Proof/Machine/Report.lean ====
section
/-!
DEFINITION. The report of a step (spec/46_host_operations.md R148). It is an output to the host and no part of the state, so
it is a function of the state before the step (notes/assumptions/10.md).
-/

namespace Sys2Proof.Machine

/-- The three cases of R148; `fault` carries the cause with its recorded value (R150). -/
inductive Report where
  | ok
  | invalidOpcode (op : Word)
  | fault (f : Fault)
  deriving DecidableEq, Repr

/-- The report of a step that executed an instruction: the fault it raised, or ok. -/
def reportOfResult : Result → Except Refusal Report
  | .next t =>
    match t.fault with
    | none => .ok .ok
    | some f => .ok (.fault f)
  | .fault f => .ok (.fault f)
  | .refused r => .error r

/-- The report of the step made in `s`, the first condition met in the order of the step (R148, R160). An invalid opcode
reports `invalid_opcode(op)` under either policy (R151). -/
def stepReport (s : State) : Except Refusal Report :=
  if s.loaded then
    match s.fault with
    | some f => .ok (.fault f)
    | none =>
      if fetchLimit < s.PC.toNat then .ok (.fault (.fetchOutOfRange s.PC))
      else
        match decodeWord s.fetchWord with
        | none => .ok (.invalidOpcode s.fetchWord)
        | some i => reportOfResult (exec i s)
  else .error .notLoaded

end Sys2Proof.Machine
end

