-- ==== Sys2Proof/Machine/Ports.lean ====
section
/-!
DEFINITION. The signal-level reading the spec suggests (spec/46_host_operations.md R149, D18): one strobe at a time, no clock
and no latency. While nothing is loaded no port but the load port answers (R24, R174, notes/assumptions/5.md). No other file of
the machine depends on it (notes/assumptions/11.md).
-/

namespace Sys2Proof.Machine

/-- The key states a 16-bit level input `key` spells: bit `k` is `K[k]` (R149). -/
def keysFromPort (key : BitVec 16) : Vector Bool 16 := Vector.ofFn fun k => key.getLsbD k.val

/-- The report outputs of a step (R149). The opcode output is given only with `invalid_opcode`, the cause only
with `fault`: DESIGN CHOICE, an output that the report does not carry is absent (notes/assumptions/11.md). -/
structure ReportOutputs where
  invalidOpcode : Bool
  opcode : Option Word
  fault : Bool
  faultCause : Option Nat
  deriving DecidableEq, Repr

/-- A step's report on the report outputs (R148, R149, R150). -/
def reportOutputs : Report → ReportOutputs
  | .ok => { invalidOpcode := false, opcode := none, fault := false, faultCause := none }
  | .invalidOpcode op => { invalidOpcode := true, opcode := some op, fault := false, faultCause := none }
  | .fault f => { invalidOpcode := false, opcode := none, fault := true, faultCause := some f.code }

/-- The level outputs `dt`, `st` and `dirty` (R149). -/
structure LevelOutputs where
  dt : Byte
  st : Byte
  dirty : Bool
  deriving DecidableEq, Repr

/-- The level outputs in state `s`; they answer nothing while nothing is loaded, when no element has a value (R24, D17). -/
def State.ports (s : State) : Except Refusal LevelOutputs := s.whenLoaded { dt := s.DT, st := s.ST, dirty := s.dirty }

/-- The state with the keys at the levels of the port `key`, where they stay until the next strobe, `set_key` or load (R149;
DEDUCED, notes/assumptions/11.md). -/
def State.sampleKeys (s : State) (key : BitVec 16) : State := { s with K := keysFromPort key }

/-- The `step` strobe: the levels `key` and `rand` are sampled and one whole step is made; it answers the state after the step
and the report outputs of that step (R149). The strobe that latches an invalid opcode reports `invalid_opcode` and no `fault`
(DEDUCED, notes/assumptions/10.md). -/
def State.stepStrobe (s : State) (key : BitVec 16) (rand : Byte) : Except Refusal (State × ReportOutputs) :=
  match (s.sampleKeys key).stepWith rand with
  | .next t => (stepReport (s.sampleKeys key)).map fun r => (t, reportOutputs r)
  | .fault f => .ok (s.sampleKeys key, reportOutputs (.fault f))
  | .refused q => .error q

/-- The `reset` strobe with the byte stream of the load port (R149). -/
def State.resetStrobe (s : State) (rom : List Byte) : State := (s.resetAndLoad rom).2

/-- The `frame_ack` strobe clears `dirty` (R149). -/
def State.frameAck (s : State) : Except Refusal State := s.whenLoaded { s with dirty := false }

/-- The read port onto the 2048 display bits (R149). -/
def State.displayPort (s : State) (k : Fin 2048) : Except Refusal Bool := s.whenLoaded s.FB[k.val]

end Sys2Proof.Machine
end

