-- ==== Sys2Proof/Safety.lean ====
section
/-!
DEFINITION. The terms claims use: a machine that can step, a run that has not gone wrong, the invariant every step keeps, the
places each instruction may write (spec/00_scope.md R5), and what it means that a part of the state cannot be observed.
-/

namespace Sys2Proof.Machine

/-- The machine can step: a program is loaded and no fault is latched (R70). -/
abbrev State.running (s : State) : Prop := s.loaded = true ∧ s.fault = none

/-- A latched fault is something gone wrong, never a normal end (R157, D16). -/
abbrev State.goneWrong (s : State) : Prop := s.fault ≠ none

/-- The machine is running and still is after each of the next `n` steps. DESIGN CHOICE: the end of this run is a number of
steps; the hardware defines no end of a run (R78, notes/assumptions/14.md). -/
def State.safeFor : Nat → State → Prop
  | 0, s => s.running
  | n + 1, s => s.running ∧ ∃ t, step s = .next t ∧ State.safeFor n t

/-- `PC` plus `k`, modulo 65536 (R14, R15, R73). -/
def State.pcPlus (s : State) (k : Nat) : Word := BitVec.ofNat 16 ((s.PC.toNat + k) % 65536)

/-- Every return address in use was pushed by a call that was fetched: it is at most 0xFFE (R16, R38, R82). -/
def State.liveSlotsFetched (s : State) : Prop := ∀ k : Fin 16, k.val < s.SP.val → s.S[k.val].toNat ≤ 0xFFE

/-- The machine's invariant: memory is in canonical form, `PC` is at most 0x10FE (R83), every return address in use is at
most 0xFFE. -/
structure State.Inv (s : State) : Prop where
  memWf : s.mem.wf = true
  pcBound : s.PC.toNat ≤ 0x10FE
  slots : s.liveSlotsFetched

/-- The row of R55's table an instruction stands in, counted from 0. -/
def mapRow (i : Instr) : Nat :=
  match i with
  | .cls => 0
  | .ret => 1
  | .jp _ => 2
  | .call _ => 3
  | .seI _ _ => 4
  | .sneI _ _ => 5
  | .seR _ _ => 6
  | .ldI _ _ => 7
  | .addI _ _ => 8
  | .ldR _ _ => 9
  | .orR _ _ => 10
  | .andR _ _ => 11
  | .xorR _ _ => 12
  | .addR _ _ => 13
  | .sub _ _ => 14
  | .shr _ _ => 15
  | .subn _ _ => 16
  | .shl _ _ => 17
  | .sneR _ _ => 18
  | .ldIdx _ => 19
  | .jpV0 _ => 20
  | .rnd _ _ => 21
  | .drw _ _ _ => 22
  | .skp _ => 23
  | .sknp _ => 24
  | .ldGetdt _ => 25
  | .ldKey _ => 26
  | .ldSetdt _ => 27
  | .ldSetst _ => 28
  | .addIdx _ => 29
  | .ldGlyph _ => 30
  | .bcd _ => 31
  | .stm _ => 32
  | .ldm _ => 33

/-- The general registers an instruction's rule lets it write (R5, R10, R11). -/
def mayWriteReg (i : Instr) (r : Reg) : Bool :=
  match i with
  | .cls => false
  | .ret => false
  | .jp _ => false
  | .call _ => false
  | .seI _ _ => false
  | .sneI _ _ => false
  | .seR _ _ => false
  | .ldI x _ => r == x
  | .addI x _ => r == x
  | .ldR x _ => r == x
  | .orR x _ => r == x
  | .andR x _ => r == x
  | .xorR x _ => r == x
  | .addR x _ => r == x || r == VF
  | .sub x _ => r == x || r == VF
  | .shr x _ => r == x || r == VF
  | .subn x _ => r == x || r == VF
  | .shl x _ => r == x || r == VF
  | .sneR _ _ => false
  | .ldIdx _ => false
  | .jpV0 _ => false
  | .rnd x _ => r == x
  | .drw _ _ _ => r == VF
  | .skp _ => false
  | .sknp _ => false
  | .ldGetdt x => r == x
  | .ldKey x => r == x
  | .ldSetdt _ => false
  | .ldSetst _ => false
  | .addIdx _ => false
  | .ldGlyph _ => false
  | .bcd _ => false
  | .stm _ => false
  | .ldm x => decide (r ≤ x)

/-- The instructions that write `I` (R5, R13): `ANNN`, `FX1E`, `FX29`, `FX55`, `FX65`. -/
def writesIndex (i : Instr) : Bool :=
  match i with
  | .ldIdx _ | .addIdx _ | .ldGlyph _ | .stm _ | .ldm _ => true
  | _ => false

/-- The instructions that touch the call stack (R16): `2NNN`, `00EE`. -/
def touchesStack (i : Instr) : Bool :=
  match i with
  | .call _ | .ret => true
  | _ => false

/-- The instructions that change the display and set `dirty` (R20, R21): `00E0`, `DXYN`. -/
def touchesDisplay (i : Instr) : Bool :=
  match i with
  | .cls | .drw _ _ _ => true
  | _ => false

/-- The instructions that can raise a fault (R150). -/
def mayFault (i : Instr) : Bool :=
  match i with
  | .call _ | .ret | .drw _ _ _ | .bcd _ | .stm _ | .ldm _ | .skp _ | .sknp _ => true
  | _ => false

/-- The number of bytes an instruction stores from `I` on (R35): three for `FX33`, X + 1 for `FX55`, none otherwise. -/
def storedBytes (i : Instr) : Nat :=
  match i with
  | .bcd _ => 3
  | .stm x => x.val + 1
  | _ => 0

/-- The states `s` and `t` differ at most in `ST` and `dirty`, which no instruction reads (R21, R22). -/
def State.sameButSound (s t : State) : Prop :=
  { s with ST := 0, dirty := false } = { t with ST := 0, dirty := false }

/-- The states `s` and `t` differ at most in stack slots at or above `SP` (R17). -/
def State.sameButDeadSlots (s t : State) : Prop :=
  { s with S := Vector.replicate 16 0 } = { t with S := Vector.replicate 16 0 } ∧
    ∀ k : Fin 16, k.val < s.SP.val → s.S[k.val] = t.S[k.val]

/-- Two outcomes are of the same kind, with the same reason or with related states. -/
def outcomesAgree (R : State → State → Prop) :
    Host.Outcome State Fault Refusal → Host.Outcome State Fault Refusal → Prop
  | .next a, .next b => R a b
  | .fault f, .fault g => f = g
  | .refused q, .refused r => q = r
  | _, _ => False

end Sys2Proof.Machine
end

