-- ==== Sys2Proof/Certificates/Slice0/Obligations.lean ====
section
/-!
DEFINITION. The statements for the provers, from the numbered rules of spec/. A statement of an instruction gives the opcode
that spells it, the whole next state (so its frame as well), and where it raises a fault. Register results are written in the
exact arithmetic of spec/42_alu.md R102, not with the model's own operations.
-/

open Sys2Proof Sys2Proof.Machine

/-! ## Encoding -/

/-- Every well-formed instruction is read back from its two bytes, whatever bytes follow (R50 to R55). -/
def Obligations.DecodeReadsBackEveryEncoding : Prop :=
  ∀ (i : Instr) (rest : List Byte), i.wellFormed = true → decode (encodeBytes i ++ rest) = .ok (i, rest)

/-- An opcode that decodes is the encoding of what it decodes to, which is well formed (R55, R57). -/
def Obligations.EncodeSpellsEveryDecodedWord : Prop :=
  ∀ (op : Word) (i : Instr), decodeWord op = some i → encode i = op ∧ i.wellFormed = true

/-- R55: an opcode is the instruction of a row exactly where it matches the row's pattern under the row's mask; so at most one
row matches, and an opcode no row matches is invalid. -/
def Obligations.DecodeFollowsTheOpcodeMap : Prop :=
  ∀ op : Word,
    (∀ (k : Nat) (h : k < opcodeMap.length),
      op &&& opcodeMap[k].1 = opcodeMap[k].2 ↔ ∃ i, decodeWord op = some i ∧ mapRow i = k) ∧
    (decodeWord op = none ↔ ∀ row ∈ opcodeMap, op &&& row.1 ≠ row.2)

/-- Words written out from R55 and from the examples of spec/95_test_vectors.md, one of each family. -/
def Obligations.SampleWordsDecodeAsTheSpecSays : Prop :=
  decodeWord 0x00E0 = some .cls ∧ decodeWord 0x00EE = some .ret ∧ decodeWord 0x1234 = some (.jp 0x234) ∧
  decodeWord 0x2300 = some (.call 0x300) ∧ decodeWord 0x332A = some (.seI 3 0x2A) ∧
  decodeWord 0x5120 = some (.seR 1 2) ∧ decodeWord 0x6A42 = some (.ldI 0xA 0x42) ∧
  decodeWord 0x8376 = some (.shr 3 7) ∧ decodeWord 0xA2F0 = some (.ldIdx 0x2F0) ∧
  decodeWord 0xB300 = some (.jpV0 0x300) ∧ decodeWord 0xC20F = some (.rnd 2 0x0F) ∧
  decodeWord 0xD125 = some (.drw 1 2 5) ∧ decodeWord 0xE59E = some (.skp 5) ∧ decodeWord 0xF255 = some (.stm 2) ∧
  decodeWord 0x0000 = none ∧ decodeWord 0x5AB1 = none ∧ decodeWord 0x8AB8 = none ∧ decodeWord 0xF075 = none

/-! ## Reset and load -/

/-- R26: the state after a successful load of any ROM, element by element; a load that fails leaves no element a defined
value, so that neither a step nor any other event but a load has a meaning. -/
def Obligations.LoadGivesEveryElementItsResetValue : Prop :=
  ∀ (rom : List Byte) (s : State),
    (rom.length ≤ 3584 →
      (s.resetAndLoad rom).1 = .ok () ∧
      (∀ x : Reg, (s.resetAndLoad rom).2.reg x = 0) ∧
      (s.resetAndLoad rom).2.I = 0 ∧ (s.resetAndLoad rom).2.PC = 0x200 ∧ (s.resetAndLoad rom).2.SP = 0 ∧
      (∀ k : Fin 16, (s.resetAndLoad rom).2.S[k.val] = 0) ∧
      (∀ k : Fin 16, (s.resetAndLoad rom).2.K[k.val] = false) ∧
      (∀ x y : Nat, (s.resetAndLoad rom).2.FB.pixel x y = false) ∧
      (s.resetAndLoad rom).2.dirty = true ∧ (s.resetAndLoad rom).2.DT = 0 ∧ (s.resetAndLoad rom).2.ST = 0 ∧
      (∀ a : Fin 80, (s.resetAndLoad rom).2.mem.read a.val = Config.glyphs[a.val]) ∧
      (∀ a : Nat, 0x050 ≤ a → a ≤ 0x1FF → (s.resetAndLoad rom).2.mem.read a = 0) ∧
      (∀ (j : Nat) (h : j < rom.length), (s.resetAndLoad rom).2.mem.read (0x200 + j) = rom[j]) ∧
      (∀ a : Nat, 0x200 + rom.length ≤ a → a ≤ 0xFFF → (s.resetAndLoad rom).2.mem.read a = 0) ∧
      (s.resetAndLoad rom).2.loaded = true ∧ (s.resetAndLoad rom).2.fault = none) ∧
    (3584 < rom.length → step (s.resetAndLoad rom).2 = .refused .notLoaded ∧
      ∀ e : Event, (∀ rom', e ≠ .resetAndLoad rom') → (s.resetAndLoad rom).2.after e = none)

/-- R171: a ROM longer than 3584 bytes is refused and leaves the machine not loaded, whatever it was before; nothing but a
load has a meaning then (R24, D17). A ROM of at most 3584 bytes loads. -/
def Obligations.OversizedRomLeavesTheMachineUnloaded : Prop :=
  ∀ (rom : List Byte) (s : State),
    (rom.length ≤ 3584 → (s.resetAndLoad rom).1 = .ok () ∧ (s.resetAndLoad rom).2.loaded = true) ∧
    (3584 < rom.length →
      (s.resetAndLoad rom).1 = .error .tooLarge ∧ (s.resetAndLoad rom).2.loaded = false ∧
      ∀ e : Event, (∀ rom', e ≠ .resetAndLoad rom') → (s.resetAndLoad rom).2.after e = none)

/-- Two successful loads of one ROM give the same state whatever stood before (R173), the model's own count of free bytes
apart, which a load keeps (DESIGN CHOICE, notes/assumptions/4.md). -/
def Obligations.LoadForgetsEverythingBefore : Prop :=
  ∀ (rom : List Byte) (s t : State), rom.length ≤ 3584 →
    { (s.resetAndLoad rom).2 with draws := t.draws } = (t.resetAndLoad rom).2

/-! ## Host operations -/

/-- R141: `set_key` writes that key and nothing else. -/
def Obligations.SetKeyWritesThatKeyOnly : Prop :=
  ∀ (s : State) (k : Fin 16) (p : Bool), s.loaded = true →
    ∃ t, s.setKey k p = .ok t ∧ t = { s with K := t.K } ∧
      ∀ j : Fin 16, t.K[j.val] = if j = k then p else s.K[j.val]

/-- R142: `take_frame` returns the buffer as it is, clears `dirty`, changes nothing else, and a second drain at once reports
not dirty and returns the same buffer. -/
def Obligations.TakeFrameReturnsTheBufferAndClearsDirty : Prop :=
  ∀ s : State, s.loaded = true →
    ∃ t, s.takeFrame = .ok (s.FB, t) ∧ t = { s with dirty := false } ∧ t.isDirty = .ok false ∧
      t.takeFrame = .ok (s.FB, t)

/-- R144, R145: the timer accessors return the timer they name and change nothing. -/
def Obligations.TimerAccessorsAnswerAndChangeNothing : Prop :=
  ∀ s : State, s.loaded = true →
    s.delayTimer = .ok s.DT ∧ s.after .delayTimer = some s ∧
    s.soundTimer = .ok s.ST ∧ s.after .soundTimer = some s

/-- R143: `dirty` is true after a load and after a step that completed `00E0` or `DXYN`, false after a drain, and otherwise
as it was; `is_dirty` answers it. -/
def Obligations.DirtyTellsOfDisplayInstructionsSinceTheDrain : Prop :=
  (∀ (rom : List Byte) (s : State), rom.length ≤ 3584 → (s.resetAndLoad rom).2.dirty = true) ∧
  (∀ (s : State) (i : Instr) (t : State), s.PC.toNat ≤ 0xFFE → decodeWord s.fetchWord = some i → step s = .next t →
    t.dirty = (s.dirty || touchesDisplay i && t.fault.isNone)) ∧
  (∀ s t : State, (0xFFE < s.PC.toNat ∨ decodeWord s.fetchWord = none) → step s = .next t → t.dirty = s.dirty) ∧
  (∀ s : State, s.loaded = true →
    s.isDirty = .ok s.dirty ∧ s.after .isDirty = some s ∧
    (∃ t, s.after .takeFrame = some t ∧ t.dirty = false) ∧
    (∀ k p, ∃ t, s.after (.setKey k p) = some t ∧ t.dirty = s.dirty))

/-- The signal-level reading (R149): the `step` strobe makes `step(rand)` of the state whose key `k` is bit `k` of the port
`key`, and its report outputs are those of that step; the level outputs are the timers and `dirty`; while nothing is loaded
neither answers (R24, notes/assumptions/5.md). The model's choices, not R149's words: an output that the report does not carry
is absent (DESIGN CHOICE), the keys stay at the sampled levels and a step of a stopped machine changes nothing else (DEDUCED),
both notes/assumptions/11.md; the strobe that latches an invalid opcode reports it on `invalid_opcode` with `fault` low
(DEDUCED, notes/assumptions/10.md); a stopped machine's step ends in the outcome `fault` (DEDUCED, notes/assumptions/1.md). -/
def Obligations.StepStrobeSamplesThePorts : Prop :=
  ∀ (s : State) (key : BitVec 16) (r : Byte), ∃ K : Vector Bool 16, ∀ u : State, u = { s with K := K } →
    (∀ k : Fin 16, K[k.val] = key.getLsbD k.val) ∧
    (∀ t, u.stepWith r = .next t →
      ∃ o, s.stepStrobe key r = .ok (t, o) ∧
        (stepReport u = .ok .ok ∧ o = ⟨false, none, false, none⟩ ∨
         (∃ op, stepReport u = .ok (.invalidOpcode op) ∧ o = ⟨true, some op, false, none⟩) ∨
         ∃ f, stepReport u = .ok (.fault f) ∧ o = ⟨false, none, true, some f.code⟩)) ∧
    (∀ f, u.stepWith r = .fault f → s.stepStrobe key r = .ok (u, ⟨false, none, true, some f.code⟩)) ∧
    (s.loaded = true → s.ports = .ok { dt := s.DT, st := s.ST, dirty := s.dirty }) ∧
    (s.loaded = false → s.stepStrobe key r = .error .notLoaded ∧ s.ports = .error .notLoaded)

/-- No event but a load clears a latched fault or lets the program go on: the latch, the registers, memory, the stack, the
display and the timers stay, and a step reports the same fault again (R157, R158). That such a step ends in `fault` and not in
an unchanged next state is the model's reading (notes/assumptions/1.md). -/
def Obligations.OnlyALoadLeavesAFault : Prop :=
  ∀ (s : State) (f : Fault) (e : Event) (t : State), s.loaded = true → s.fault = some f →
    (∀ rom, e ≠ .resetAndLoad rom) → s.after e = some t →
      t = { s with K := t.K, dirty := t.dirty } ∧ step t = .fault f ∧ stepReport t = .ok (.fault f)

/-! ## The step -/

/-- A step of a machine that runs is `exec` of the instruction decoded from the two bytes at `PC`, high byte first, followed
by the timer post-step where the instruction raised no fault (R70 to R74); it reports ok, or the fault (R148). -/
def Obligations.StepRunsTheDecodedInstruction : Prop :=
  ∀ (s : State) (i : Instr) (t : State), s.running → s.PC.toNat ≤ 0xFFE →
    decodeWord (BitVec.ofNat 16 ((s.mem.read s.PC.toNat).toNat * 256 + (s.mem.read (s.PC.toNat + 1)).toNat)) = some i →
    exec i s = .next t →
      step s = .next (if t.fault = none then { t with DT := tickTimer t.DT, ST := tickTimer t.ST } else t) ∧
      stepReport s = .ok (match t.fault with | none => .ok | some f => .fault f)

/-- R152: a step whose `PC` is above 0xFFE latches `FetchOutOfRange(PC)` and changes nothing else, whatever memory holds. -/
def Obligations.FetchBeyondMemoryLatches : Prop :=
  ∀ s : State, s.running → 0xFFE < s.PC.toNat →
    step s = .next { s with fault := some (.fetchOutOfRange s.PC) } ∧
      stepReport s = .ok (.fault (.fetchOutOfRange s.PC))

/-- R151: an invalid opcode is reported under both policies; under `stall` nothing changes, so the same report comes again;
under `fault` the latch is set and nothing else changes. -/
def Obligations.InvalidOpcodeFollowsThePolicy : Prop :=
  ∀ s : State, s.running → s.PC.toNat ≤ 0xFFE → decodeWord s.fetchWord = none →
    stepReport s = .ok (.invalidOpcode s.fetchWord) ∧
    stepUnder .stall s = .next s ∧
    stepUnder .fault s = .next { s with fault := some (.invalidOpcode s.fetchWord) } ∧
    step s = stepUnder Config.invalidOpcodePolicy s

/-- With a fault latched, a step makes no next state and reports the fault that is latched (R157). That it ends in `fault` is the
model's reading (notes/assumptions/1.md). -/
def Obligations.LatchedFaultStopsEveryStep : Prop :=
  ∀ (s : State) (f : Fault), s.loaded = true → s.fault = some f →
    step s = .fault f ∧ stepReport s = .ok (.fault f)

/-- R75: a step that ends with a fault latched, or that reports a fault or an invalid opcode, has changed nothing but the
latch. -/
def Obligations.FaultingStepChangesOnlyTheLatch : Prop :=
  (∀ (s t : State) (f : Fault), step s = .next t → t.fault = some f →
    t = { s with fault := some f } ∧ (stepReport s = .ok (.fault f) ∨ ∃ op, stepReport s = .ok (.invalidOpcode op))) ∧
  (∀ s t : State, step s = .next t → stepReport s ≠ .ok .ok → t = { s with fault := t.fault })

/-- A machine that runs always has a next state: there is no halt, and a step never ends a run by itself (R78, R77). -/
def Obligations.RunningMachineAlwaysHasASuccessor : Prop :=
  ∀ s : State, s.running → ∃ t, step s = .next t ∧ t.loaded = true

/-- R74: in a step that completes, each timer falls by one where above 0, from the value the instruction left: `V[X]` for the
instruction that sets it, the old value otherwise, and `FX07` reads the delay timer before the tick; in a step that raises a
fault or meets an invalid opcode, neither timer changes. -/
def Obligations.TimersTickOncePerCompletedStep : Prop :=
  (∀ (s : State) (i : Instr) (t : State), s.running → s.PC.toNat ≤ 0xFFE → decodeWord s.fetchWord = some i →
    step s = .next t → t.fault = none →
      t.DT.toNat = (match i with | .ldSetdt x => (s.reg x).toNat | _ => s.DT.toNat) - 1 ∧
      t.ST.toNat = (match i with | .ldSetst x => (s.reg x).toNat | _ => s.ST.toNat) - 1 ∧
      ∀ x, i = .ldGetdt x → t.reg x = s.DT) ∧
  (∀ s t : State, step s = .next t → (t.fault ≠ none ∨ s.PC.toNat ≤ 0xFFE ∧ decodeWord s.fetchWord = none) →
    t.DT = s.DT ∧ t.ST = s.ST)

/-- Only `CXNN` reads the free byte (R101, R147): a step of any other opcode is the same for every byte given it as argument, and
is the step of a run that names no bytes; that step is, for every opcode, the one with the environment's next free byte, its
count of bytes drawn apart; only `CXNN` changes the count, and a step with its byte as an argument never does. The count
`draws` and the sequence `Config.freeByte` are the model's own (DESIGN CHOICE, notes/assumptions/4.md). -/
def Obligations.OnlyRandomReadsTheFreeByte : Prop :=
  (∀ (s : State) (r : Byte), (∀ x nn, decodeWord s.fetchWord ≠ some (.rnd x nn)) → s.stepWith r = step s) ∧
  (∀ s t : State, step s = .next t → s.stepWith (Config.freeByte s.draws) = .next { t with draws := s.draws }) ∧
  (∀ (s t : State) (r : Byte), s.stepWith r = .next t → t.draws = s.draws) ∧
  (∀ (i : Instr) (s t : State), (∀ x nn, i ≠ .rnd x nn) → exec i s = .next t → t.draws = s.draws)

/-- A byte stored by `FX55` or `FX33` is what the very next fetch sees: where it lies at the new `PC` it is the high byte of the
word fetched, where it lies at the new `PC + 1` the low byte, for every byte of the block (R43, R183). -/
def Obligations.NextFetchSeesStoredBytes : Prop :=
  ∀ (s : State), s.mem.wf = true →
    (∀ (x k : Reg) (t : State), k ≤ x → s.I.toNat + x.val ≤ 0xFFF → exec (.stm x) s = .next t →
      (t.PC.toNat = s.I.toNat + k.val → t.fetchWord.toNat / 256 = (s.reg k).toNat) ∧
      (t.PC.toNat + 1 = s.I.toNat + k.val → t.fetchWord.toNat % 256 = (s.reg k).toNat)) ∧
    (∀ (x : Reg) (k digit : Nat) (t : State), s.I.toNat + 2 ≤ 0xFFF → exec (.bcd x) s = .next t →
      (k = 0 ∧ digit = (s.reg x).toNat / 100 ∨ k = 1 ∧ digit = (s.reg x).toNat / 10 % 10 ∨
        k = 2 ∧ digit = (s.reg x).toNat % 10) →
      (t.PC.toNat = s.I.toNat + k → t.fetchWord.toNat / 256 = digit) ∧
      (t.PC.toNat + 1 = s.I.toNat + k → t.fetchWord.toNat % 256 = digit))

/-! ## Memory -/

/-- R39: a write to an address of memory stores the byte there and nowhere else, and memory keeps its canonical form. -/
def Obligations.MemoryWriteStoresThatByteOnly : Prop :=
  ∀ (m : Memory) (a : Nat) (v : Byte), m.wf = true → a ≤ 0xFFF →
    (m.write a v).wf = true ∧ (m.write a v).read a = v ∧ ∀ c, c ≠ a → (m.write a v).read c = m.read c

/-! ## Control transfer -/

/-- R80. -/
def Obligations.ReturnGoesTwoPastTheCall : Prop :=
  decodeWord 0x00EE = some .ret ∧
  ∀ s : State,
    (∀ h : 0 < s.SP.val, exec .ret s = .next { s with
      SP := ⟨s.SP.val - 1, by omega⟩
      PC := BitVec.ofNat 16 (((s.S[s.SP.val - 1]'(by omega)).toNat + 2) % 65536) }) ∧
    (s.SP = 0 → exec .ret s = .next { s with fault := some (.stackUnderflow s.PC) })

/-- R82. -/
def Obligations.CallPushesItsOwnAddress : Prop :=
  ∀ nnn : BitVec 12, decodeWord (BitVec.ofNat 16 (0x2000 + nnn.toNat)) = some (.call nnn) ∧
    ∀ s : State,
      (∀ h : s.SP.val < 16, exec (.call nnn) s = .next { s with
        S := s.S.set s.SP.val s.PC
        SP := ⟨s.SP.val + 1, by omega⟩
        PC := BitVec.ofNat 16 nnn.toNat }) ∧
      (s.SP.val = 16 → exec (.call nnn) s = .next { s with fault := some (.stackOverflow s.PC) })

/-- A call and the return that matches it come back to the instruction after the call with the stack pointer as before,
whatever ran between on a stack as deep again (R82, R80). -/
def Obligations.CallThenReturnComesBack : Prop :=
  ∀ (nnn : BitVec 12) (s t u v : State), s.SP.val < 16 → exec (.call nnn) s = .next t →
    u.SP = t.SP → (∀ k : Fin 16, k.val < t.SP.val → u.S[k.val] = t.S[k.val]) → exec .ret u = .next v →
      v.PC = s.pcPlus 2 ∧ v.SP = s.SP ∧ ∀ k : Fin 16, k.val < s.SP.val → v.S[k.val] = s.S[k.val]

/-- R81, R83. -/
def Obligations.JumpsSetPc : Prop :=
  ∀ nnn : BitVec 12,
    decodeWord (BitVec.ofNat 16 (0x1000 + nnn.toNat)) = some (.jp nnn) ∧
    decodeWord (BitVec.ofNat 16 (0xB000 + nnn.toNat)) = some (.jpV0 nnn) ∧
    ∀ s : State,
      exec (.jp nnn) s = .next { s with PC := BitVec.ofNat 16 nnn.toNat } ∧
      exec (.jpV0 nnn) s = .next { s with PC := BitVec.ofNat 16 (nnn.toNat + (s.reg 0).toNat) } ∧
      nnn.toNat + (s.reg 0).toNat ≤ 0x10FE

/-- R84, R85, R86, R87. -/
def Obligations.RegisterSkipsGoFourOrTwo : Prop :=
  ∀ (x y : Reg) (nn : Byte),
    decodeWord (BitVec.ofNat 16 (0x3000 + x.val * 256 + nn.toNat)) = some (.seI x nn) ∧
    decodeWord (BitVec.ofNat 16 (0x4000 + x.val * 256 + nn.toNat)) = some (.sneI x nn) ∧
    decodeWord (BitVec.ofNat 16 (0x5000 + x.val * 256 + y.val * 16)) = some (.seR x y) ∧
    decodeWord (BitVec.ofNat 16 (0x9000 + x.val * 256 + y.val * 16)) = some (.sneR x y) ∧
    ∀ s : State,
      exec (.seI x nn) s = .next { s with PC := if s.reg x = nn then s.pcPlus 4 else s.pcPlus 2 } ∧
      exec (.sneI x nn) s = .next { s with PC := if s.reg x = nn then s.pcPlus 2 else s.pcPlus 4 } ∧
      exec (.seR x y) s = .next { s with PC := if s.reg x = s.reg y then s.pcPlus 4 else s.pcPlus 2 } ∧
      exec (.sneR x y) s = .next { s with PC := if s.reg x = s.reg y then s.pcPlus 2 else s.pcPlus 4 }

/-! ## Register loads and the ALU -/

/-- R90, R91, R92. -/
def Obligations.LoadsAndImmediateAdd : Prop :=
  ∀ (x y : Reg) (nn : Byte),
    decodeWord (BitVec.ofNat 16 (0x6000 + x.val * 256 + nn.toNat)) = some (.ldI x nn) ∧
    decodeWord (BitVec.ofNat 16 (0x7000 + x.val * 256 + nn.toNat)) = some (.addI x nn) ∧
    decodeWord (BitVec.ofNat 16 (0x8000 + x.val * 256 + y.val * 16)) = some (.ldR x y) ∧
    ∀ s : State,
      exec (.ldI x nn) s = .next { s with V := s.V.set x.val nn, PC := s.pcPlus 2 } ∧
      exec (.addI x nn) s = .next { s with
        V := s.V.set x.val (BitVec.ofNat 8 (((s.reg x).toNat + nn.toNat) % 256)), PC := s.pcPlus 2 } ∧
      exec (.ldR x y) s = .next { s with V := s.V.set x.val (s.reg y), PC := s.pcPlus 2 }

/-- R93, R94, R95: each bit of `V[X]` by itself; VF is written only as the destination. -/
def Obligations.BitwiseOperationsAreBitByBit : Prop :=
  ∀ (x y : Reg),
    decodeWord (BitVec.ofNat 16 (0x8001 + x.val * 256 + y.val * 16)) = some (.orR x y) ∧
    decodeWord (BitVec.ofNat 16 (0x8002 + x.val * 256 + y.val * 16)) = some (.andR x y) ∧
    decodeWord (BitVec.ofNat 16 (0x8003 + x.val * 256 + y.val * 16)) = some (.xorR x y) ∧
    ∀ s : State,
      (∃ t, exec (.orR x y) s = .next t ∧ t = { s with V := s.V.set x.val (t.reg x), PC := s.pcPlus 2 } ∧
        ∀ k < 8, (t.reg x).getLsbD k = ((s.reg x).getLsbD k || (s.reg y).getLsbD k)) ∧
      (∃ t, exec (.andR x y) s = .next t ∧ t = { s with V := s.V.set x.val (t.reg x), PC := s.pcPlus 2 } ∧
        ∀ k < 8, (t.reg x).getLsbD k = ((s.reg x).getLsbD k && (s.reg y).getLsbD k)) ∧
      (∃ t, exec (.xorR x y) s = .next t ∧ t = { s with V := s.V.set x.val (t.reg x), PC := s.pcPlus 2 } ∧
        ∀ k < 8, (t.reg x).getLsbD k = ((s.reg x).getLsbD k ^^ (s.reg y).getLsbD k))

/-- R96: the sum, then the carry; both operands are the values before the instruction. -/
def Obligations.AddWritesTheSumThenTheCarry : Prop :=
  ∀ (x y : Reg), decodeWord (BitVec.ofNat 16 (0x8004 + x.val * 256 + y.val * 16)) = some (.addR x y) ∧
    ∀ s : State, ∃ t, exec (.addR x y) s = .next t ∧ t = { s with V := t.V, PC := s.pcPlus 2 } ∧
      (∀ r : Reg, r ≠ x → r ≠ 15 → t.reg r = s.reg r) ∧
      (x ≠ 15 → (t.reg x).toNat = ((s.reg x).toNat + (s.reg y).toNat) % 256) ∧
      (t.reg 15).toNat = if 255 < (s.reg x).toNat + (s.reg y).toNat then 1 else 0

/-- R97: the inverted borrow, then the difference modulo 256; where X is F the difference stands. -/
def Obligations.SubWritesTheFlagThenTheDifference : Prop :=
  ∀ (x y : Reg), decodeWord (BitVec.ofNat 16 (0x8005 + x.val * 256 + y.val * 16)) = some (.sub x y) ∧
    ∀ s : State, ∃ t, exec (.sub x y) s = .next t ∧ t = { s with V := t.V, PC := s.pcPlus 2 } ∧
      (∀ r : Reg, r ≠ x → r ≠ 15 → t.reg r = s.reg r) ∧
      ((t.reg x).toNat : Int) = ((s.reg x).toNat - (s.reg y).toNat : Int) % 256 ∧
      (x ≠ 15 → (t.reg 15).toNat = if (s.reg x).toNat < (s.reg y).toNat then 0 else 1)

/-- R99: as R97 with the operands exchanged. -/
def Obligations.SubnWritesTheFlagThenTheReverseDifference : Prop :=
  ∀ (x y : Reg), decodeWord (BitVec.ofNat 16 (0x8007 + x.val * 256 + y.val * 16)) = some (.subn x y) ∧
    ∀ s : State, ∃ t, exec (.subn x y) s = .next t ∧ t = { s with V := t.V, PC := s.pcPlus 2 } ∧
      (∀ r : Reg, r ≠ x → r ≠ 15 → t.reg r = s.reg r) ∧
      ((t.reg x).toNat : Int) = ((s.reg y).toNat - (s.reg x).toNat : Int) % 256 ∧
      (x ≠ 15 → (t.reg 15).toNat = if (s.reg y).toNat < (s.reg x).toNat then 0 else 1)

/-- R98, R100: the bit shifted out, then the shifted value; the field Y has no effect; where X is F the value stands. -/
def Obligations.ShiftsWriteTheBitThenTheValue : Prop :=
  ∀ (x y : Reg),
    decodeWord (BitVec.ofNat 16 (0x8006 + x.val * 256 + y.val * 16)) = some (.shr x y) ∧
    decodeWord (BitVec.ofNat 16 (0x800E + x.val * 256 + y.val * 16)) = some (.shl x y) ∧
    ∀ s : State,
      (∃ t, exec (.shr x y) s = .next t ∧ t = { s with V := t.V, PC := s.pcPlus 2 } ∧
        (∀ r : Reg, r ≠ x → r ≠ 15 → t.reg r = s.reg r) ∧
        (t.reg x).toNat = (s.reg x).toNat / 2 ∧ (x ≠ 15 → (t.reg 15).toNat = (s.reg x).toNat % 2)) ∧
      (∃ t, exec (.shl x y) s = .next t ∧ t = { s with V := t.V, PC := s.pcPlus 2 } ∧
        (∀ r : Reg, r ≠ x → r ≠ 15 → t.reg r = s.reg r) ∧
        (t.reg x).toNat = 2 * (s.reg x).toNat % 256 ∧ (x ≠ 15 → (t.reg 15).toNat = (s.reg x).toNat / 128))

/-- `V[X]` gets the byte `rand` masked, for every byte; no bit outside the mask is set (R101). In a run that names no bytes the
byte is the environment's next free one, and exactly one is drawn: the count `draws` and the sequence `Config.freeByte` are the
model's own (DESIGN CHOICE, notes/assumptions/4.md). -/
def Obligations.RandomByteIsMasked : Prop :=
  ∀ (x : Reg) (nn : Byte), decodeWord (BitVec.ofNat 16 (0xC000 + x.val * 256 + nn.toNat)) = some (.rnd x nn) ∧
    ∀ s : State,
      (∀ rand : Byte, ∃ t, execWith rand (.rnd x nn) s = .next t ∧
        t = { s with V := s.V.set x.val (t.reg x), PC := s.pcPlus 2 } ∧
        (∀ k < 8, (t.reg x).getLsbD k = (rand.getLsbD k && nn.getLsbD k)) ∧
        (nn = 0 → t.reg x = 0) ∧ (nn = 0xFF → t.reg x = rand)) ∧
      ∃ t, execWith (Config.freeByte s.draws) (.rnd x nn) s = .next t ∧
        exec (.rnd x nn) s = .next { t with draws := s.draws + 1 }

/-! ## Index register and memory -/

/-- R110, R111, R112. -/
def Obligations.IndexInstructionsWriteIOnly : Prop :=
  ∀ (x : Reg) (nnn : BitVec 12),
    decodeWord (BitVec.ofNat 16 (0xA000 + nnn.toNat)) = some (.ldIdx nnn) ∧
    decodeWord (BitVec.ofNat 16 (0xF01E + x.val * 256)) = some (.addIdx x) ∧
    decodeWord (BitVec.ofNat 16 (0xF029 + x.val * 256)) = some (.ldGlyph x) ∧
    ∀ s : State,
      exec (.ldIdx nnn) s = .next { s with I := BitVec.ofNat 16 nnn.toNat, PC := s.pcPlus 2 } ∧
      exec (.addIdx x) s = .next { s with
        I := BitVec.ofNat 16 ((s.I.toNat + (s.reg x).toNat) % 65536), PC := s.pcPlus 2 } ∧
      exec (.ldGlyph x) s = .next { s with I := BitVec.ofNat 16 (5 * (s.reg x).toNat), PC := s.pcPlus 2 }

/-- R113: the digits at `I`, `I + 1`, `I + 2`, every other byte as before, `I` unchanged; where `I > 0xFFD` the fault and
nothing stored. -/
def Obligations.BcdStoresThreeDigits : Prop :=
  ∀ (x : Reg), decodeWord (BitVec.ofNat 16 (0xF033 + x.val * 256)) = some (.bcd x) ∧
    ∀ s : State,
      (s.mem.wf = true → s.I.toNat + 2 ≤ 0xFFF →
        ∃ t, exec (.bcd x) s = .next t ∧ t = { s with mem := t.mem, PC := s.pcPlus 2 } ∧
          (t.mem.read s.I.toNat).toNat = (s.reg x).toNat / 100 ∧
          (t.mem.read (s.I.toNat + 1)).toNat = (s.reg x).toNat / 10 % 10 ∧
          (t.mem.read (s.I.toNat + 2)).toNat = (s.reg x).toNat % 10 ∧
          ∀ a, a < s.I.toNat ∨ s.I.toNat + 2 < a → t.mem.read a = s.mem.read a) ∧
      (0xFFF < s.I.toNat + 2 →
        exec (.bcd x) s = .next { s with fault := some (.memoryOutOfRange (s.I.toNat + 2)) })

/-- R114: V0 to VX at `I` on, every other byte as before, `I` past the block; where the last address is above 0xFFF the fault
and nothing stored. -/
def Obligations.StoreBlockWritesRegistersAndMovesI : Prop :=
  ∀ (x : Reg), decodeWord (BitVec.ofNat 16 (0xF055 + x.val * 256)) = some (.stm x) ∧
    ∀ s : State,
      (s.mem.wf = true → s.I.toNat + x.val ≤ 0xFFF →
        ∃ t, exec (.stm x) s = .next t ∧
          t = { s with mem := t.mem, I := BitVec.ofNat 16 ((s.I.toNat + x.val + 1) % 65536), PC := s.pcPlus 2 } ∧
          (∀ k : Reg, k ≤ x → t.mem.read (s.I.toNat + k.val) = s.reg k) ∧
          ∀ a, a < s.I.toNat ∨ s.I.toNat + x.val < a → t.mem.read a = s.mem.read a) ∧
      (0xFFF < s.I.toNat + x.val →
        exec (.stm x) s = .next { s with fault := some (.memoryOutOfRange (s.I.toNat + x.val)) })

/-- R115: V0 to VX from `I` on, registers above VX as before, `I` past the block; where the last address is above 0xFFF the
fault and no register written. -/
def Obligations.LoadBlockReadsRegistersAndMovesI : Prop :=
  ∀ (x : Reg), decodeWord (BitVec.ofNat 16 (0xF065 + x.val * 256)) = some (.ldm x) ∧
    ∀ s : State,
      (s.I.toNat + x.val ≤ 0xFFF →
        ∃ t, exec (.ldm x) s = .next t ∧
          t = { s with V := t.V, I := BitVec.ofNat 16 ((s.I.toNat + x.val + 1) % 65536), PC := s.pcPlus 2 } ∧
          ∀ k : Reg, t.reg k = if k ≤ x then s.mem.read (s.I.toNat + k.val) else s.reg k) ∧
      (0xFFF < s.I.toNat + x.val →
        exec (.ldm x) s = .next { s with fault := some (.memoryOutOfRange (s.I.toNat + x.val)) })

/-! ## Display -/

/-- R120. -/
def Obligations.ClearBlanksTheDisplay : Prop :=
  decodeWord 0x00E0 = some .cls ∧
  ∀ s : State, ∃ t, exec .cls s = .next t ∧ t = { s with FB := t.FB, dirty := true, PC := s.pcPlus 2 } ∧
    ∀ k : Fin 2048, t.FB[k.val] = false

/-- R121, R122: a pixel of the display changes exactly where a set sprite bit falls on it after wrapping each coordinate; VF is 1
where one of them was set before, else 0; VF, `dirty` and `PC` are the only other things written; the coordinates are the values
before the instruction; where the last sprite byte lies above 0xFFF only the latch changes. -/
def Obligations.DrawInvertsExactlyTheSpritePixels : Prop :=
  ∀ (x y : Reg) (n : Nat), n ≤ 15 →
    decodeWord (BitVec.ofNat 16 (0xD000 + x.val * 256 + y.val * 16 + n)) = some (.drw x y n) ∧
    ∀ s : State,
      (n = 0 ∨ s.I.toNat + n - 1 ≤ 0xFFF →
        ∃ t, exec (.drw x y n) s = .next t ∧
          t = { s with V := s.V.set 15 (t.reg 15), FB := t.FB, dirty := true, PC := s.pcPlus 2 } ∧
          (∀ px py : Nat, px < 64 → py < 32 →
            (t.FB.pixel px py ≠ s.FB.pixel px py ↔
              ∃ r < n, ∃ c < 8, (s.mem.read (s.I.toNat + r)).getLsbD (7 - c) = true ∧
                ((s.reg x).toNat + c) % 64 = px ∧ ((s.reg y).toNat + r) % 32 = py)) ∧
          (t.reg 15 = 1 ∧ (∃ px < 64, ∃ py < 32, s.FB.pixel px py = true ∧ t.FB.pixel px py = false) ∨
           t.reg 15 = 0 ∧ ¬ ∃ px < 64, ∃ py < 32, s.FB.pixel px py = true ∧ t.FB.pixel px py = false)) ∧
      (0 < n → 0xFFF < s.I.toNat + n - 1 →
        exec (.drw x y n) s = .next { s with fault := some (.memoryOutOfRange (s.I.toNat + n - 1)) })

/-- R123: VF is 1 exactly where some set sprite bit meets a pixel that was set before the instruction, and 0 otherwise. -/
def Obligations.CollisionFlagIsAnyOverlap : Prop :=
  ∀ (x y : Reg) (n : Nat) (s : State), n ≤ 15 → n = 0 ∨ s.I.toNat + n - 1 ≤ 0xFFF →
    ∃ t, exec (.drw x y n) s = .next t ∧ (t.reg 15 = 0 ∨ t.reg 15 = 1) ∧
      (t.reg 15 = 1 ↔
        ∃ r < n, ∃ c < 8, (s.mem.read (s.I.toNat + r)).getLsbD (7 - c) = true ∧
          s.FB.pixel (((s.reg x).toNat + c) % 64) (((s.reg y).toNat + r) % 32) = true)

/-- A sprite whose last byte lies above 0xFFF raises the fault and draws nothing (R121, R37). -/
def Obligations.DrawBeyondMemoryLatches : Prop :=
  ∀ (x y : Reg) (n : Nat) (s : State), 0 < n → 0xFFF < s.I.toNat + n - 1 →
    exec (.drw x y n) s = .next { s with fault := some (.memoryOutOfRange (s.I.toNat + n - 1)) }

/-- Drawing the same sprite twice at the same place gives the display back; on a blank display the first draw does not collide
and the second collides exactly where the sprite has a set bit at all (the source's own example, S10). -/
def Obligations.DrawingTwiceRestoresTheDisplay : Prop :=
  ∀ (x y : Reg) (n : Nat) (s t u v : State), n ≤ 15 → n = 0 ∨ s.I.toNat + n - 1 ≤ 0xFFF →
    exec (.drw x y n) s = .next t → u = { t with V := s.V } → exec (.drw x y n) u = .next v →
      v.FB = s.FB ∧
      ((∀ k : Fin 2048, s.FB[k.val] = false) → t.reg 15 = 0 ∧
        (v.reg 15 = 1 ↔ ∃ r < n, ∃ c < 8, (s.mem.read (s.I.toNat + r)).getLsbD (7 - c) = true))

/-! ## Keypad and timers -/

/-- R130, R131. -/
def Obligations.KeySkipsTestTheKey : Prop :=
  ∀ (x : Reg),
    decodeWord (BitVec.ofNat 16 (0xE09E + x.val * 256)) = some (.skp x) ∧
    decodeWord (BitVec.ofNat 16 (0xE0A1 + x.val * 256)) = some (.sknp x) ∧
    ∀ s : State,
      (∀ k : Fin 16, (s.reg x).toNat = k.val →
        exec (.skp x) s = .next { s with PC := if s.K[k.val] then s.pcPlus 4 else s.pcPlus 2 } ∧
        exec (.sknp x) s = .next { s with PC := if s.K[k.val] then s.pcPlus 2 else s.pcPlus 4 }) ∧
      (15 < (s.reg x).toNat →
        exec (.skp x) s = .next { s with fault := some (.keyIndexOutOfRange (s.reg x)) } ∧
        exec (.sknp x) s = .next { s with fault := some (.keyIndexOutOfRange (s.reg x)) })

/-- R132: the least pressed key; with no key pressed nothing changes, and in the whole step only the timers do. -/
def Obligations.KeyWaitTakesTheLowestKey : Prop :=
  ∀ (x : Reg), decodeWord (BitVec.ofNat 16 (0xF00A + x.val * 256)) = some (.ldKey x) ∧
    ∀ s : State,
      (∀ k : Fin 16, s.K[k.val] = true → (∀ j : Fin 16, j < k → s.K[j.val] = false) →
        exec (.ldKey x) s = .next { s with V := s.V.set x.val (BitVec.ofNat 8 k.val), PC := s.pcPlus 2 }) ∧
      ((∀ k : Fin 16, s.K[k.val] = false) → exec (.ldKey x) s = .next s ∧
        (s.running → s.PC.toNat ≤ 0xFFE → decodeWord s.fetchWord = some (.ldKey x) →
          ∃ t, step s = .next t ∧ t = { s with DT := t.DT, ST := t.ST } ∧
            t.DT.toNat = s.DT.toNat - 1 ∧ t.ST.toNat = s.ST.toNat - 1))

/-- R133, R134, R135: the value before the tick is read; the value written is ticked in the same step. -/
def Obligations.TimerRegistersReadAndWrite : Prop :=
  ∀ (x : Reg),
    decodeWord (BitVec.ofNat 16 (0xF007 + x.val * 256)) = some (.ldGetdt x) ∧
    decodeWord (BitVec.ofNat 16 (0xF015 + x.val * 256)) = some (.ldSetdt x) ∧
    decodeWord (BitVec.ofNat 16 (0xF018 + x.val * 256)) = some (.ldSetst x) ∧
    ∀ s : State,
      exec (.ldGetdt x) s = .next { s with V := s.V.set x.val s.DT, PC := s.pcPlus 2 } ∧
      exec (.ldSetdt x) s = .next { s with DT := s.reg x, PC := s.pcPlus 2 } ∧
      exec (.ldSetst x) s = .next { s with ST := s.reg x, PC := s.pcPlus 2 } ∧
      (s.running → s.PC.toNat ≤ 0xFFE →
        (decodeWord s.fetchWord = some (.ldGetdt x) →
          ∃ t, step s = .next t ∧ t.reg x = s.DT ∧ t.DT.toNat = s.DT.toNat - 1) ∧
        (decodeWord s.fetchWord = some (.ldSetdt x) →
          ∃ t, step s = .next t ∧ t.DT.toNat = (s.reg x).toNat - 1) ∧
        (decodeWord s.fetchWord = some (.ldSetst x) →
          ∃ t, step s = .next t ∧ t.ST.toNat = (s.reg x).toNat - 1))

/-! ## The whole machine -/

/-- R5: an instruction changes only what its rule names: the registers of `mayWriteReg`, `I` for five instructions, the stack
for two, the display and `dirty` for two, one timer each for two, memory for two and there only the bytes stored; never a key
state, never `loaded`; the latch for the eight that can raise a fault; and VF, as a flag, only for six. -/
def Obligations.InstructionsChangeOnlyWhatTheirRuleNames : Prop :=
  ∀ (i : Instr) (s t : State), exec i s = .next t →
    (∀ r : Reg, mayWriteReg i r = false → t.reg r = s.reg r) ∧
    (writesIndex i = false → t.I = s.I) ∧
    (touchesStack i = false → t.S = s.S ∧ t.SP = s.SP) ∧
    (touchesDisplay i = false → t.FB = s.FB ∧ t.dirty = s.dirty) ∧
    ((∀ x, i ≠ .ldSetdt x) → t.DT = s.DT) ∧
    ((∀ x, i ≠ .ldSetst x) → t.ST = s.ST) ∧
    (∀ a, a < s.I.toNat ∨ s.I.toNat + storedBytes i ≤ a → t.mem.read a = s.mem.read a) ∧
    t.K = s.K ∧ t.loaded = s.loaded ∧
    (mayFault i = false → t.fault = s.fault)

/-- A step of the core never changes a key state, never clears `dirty`, never unloads the program, and never clears the
latch (R19, R21, R24). -/
def Obligations.StepKeepsWhatOnlyTheHostChanges : Prop :=
  ∀ s t : State, step s = .next t →
    t.K = s.K ∧ (s.dirty = true → t.dirty = true) ∧ t.loaded = true ∧ s.fault = none

/-- The pointer moves by at most one in a step and the slots below it stay: the stack is last in, first out (R16, R17). -/
def Obligations.StackMovesByOneEntry : Prop :=
  ∀ s t : State, step s = .next t →
    (t.SP = s.SP ∨ t.SP.val = s.SP.val + 1 ∨ t.SP.val + 1 = s.SP.val) ∧
    ∀ k : Fin 16, k.val < s.SP.val → t.S[k.val] = s.S[k.val]

/-- The invariant holds right after reset. -/
def Obligations.InvariantHoldsAtReset : Prop := State.reset.Inv

/-- Every step keeps the invariant: memory stays canonical, `PC` never passes 0x10FE (so the modulo of R15 never acts on it),
and every return address in use stays at most 0xFFE. -/
def Obligations.StepKeepsTheInvariant : Prop :=
  ∀ s t : State, s.Inv → step s = .next t → t.Inv

/-- Every finite sequence of steps and host operations, with any free bytes, keeps the invariant. -/
def Obligations.EventsKeepTheInvariant : Prop :=
  ∀ (es : List Event) (s t : State), s.Inv → s.afterAll es = some t → t.Inv

/-- R22: the sound timer has no effect inside the core, nor has `dirty`: two states that differ in these alone step to states
that differ in these alone, with the same report. -/
def Obligations.SoundTimerHasNoEffectInTheCore : Prop :=
  ∀ s t : State, s.sameButSound t →
    outcomesAgree State.sameButSound (step s) (step t) ∧ stepReport s = stepReport t

/-- R17: a stack slot at or above `SP` is unobservable: two states that differ in such slots alone step to states that differ
in such slots alone, and every host operation answers the same. -/
def Obligations.DeadStackSlotsAreUnobservable : Prop :=
  ∀ s t : State, s.sameButDeadSlots t →
    outcomesAgree State.sameButDeadSlots (step s) (step t) ∧ stepReport s = stepReport t ∧
    s.takeFrame.map Prod.fst = t.takeFrame.map Prod.fst ∧ s.isDirty = t.isDirty ∧
    s.delayTimer = t.delayTimer ∧ s.soundTimer = t.soundTimer
end

