-- ==== Sys2Proof/Laws/Memory.lean ====
section
/-!
SUPPORT. The laws of memory: a read after a write, and that every memory operation keeps the canonical form.
-/

namespace Sys2Proof.Machine

@[simp] theorem Memory.read_nil (a : Nat) : Memory.read [] a = Memory.unlisted a := rfl

theorem Memory.read_cons (c : Nat) (b : Byte) (rest : Memory) (a : Nat) :
    Memory.read ((c, b) :: rest) a = if c = a then b else Memory.read rest a := rfl

/-- Outside the glyph table an unlisted address reads 0. -/
theorem Memory.unlisted_of_le {a : Nat} (h : 80 ≤ a) : Memory.unlisted a = 0 := by
  unfold Memory.unlisted
  rw [dif_neg (by omega)]

/-- In the glyph table an unlisted address reads its glyph byte. -/
theorem Memory.unlisted_of_lt {a : Nat} (h : a < 80) : Memory.unlisted a = Config.glyphs[a] := by
  unfold Memory.unlisted
  rw [dif_pos h]

theorem Memory.wfFrom_cons {lo a : Nat} {b : Byte} {rest : Memory} :
    Memory.wfFrom lo ((a, b) :: rest) = true ↔
      lo ≤ a ∧ a < 4096 ∧ b ≠ Memory.unlisted a ∧ Memory.wfFrom (a + 1) rest = true := by
  simp [Memory.wfFrom, and_assoc]

/-- A smaller lower bound asks for less. -/
theorem Memory.wfFrom_mono {m : Memory} {lo lo' : Nat} (h : lo ≤ lo') (hm : Memory.wfFrom lo' m = true) :
    Memory.wfFrom lo m = true := by
  cases m with
  | nil => rfl
  | cons e rest =>
    obtain ⟨a, b⟩ := e
    rw [Memory.wfFrom_cons] at hm ⊢
    exact ⟨by omega, hm.2⟩

/-- Below its lower bound a canonical list lists nothing. -/
theorem Memory.read_of_lt {m : Memory} {lo a : Nat} (hm : Memory.wfFrom lo m = true) (h : a < lo) :
    m.read a = Memory.unlisted a := by
  induction m generalizing lo with
  | nil => rfl
  | cons e rest ih =>
    obtain ⟨c, b⟩ := e
    rw [Memory.wfFrom_cons] at hm
    rw [Memory.read_cons, if_neg (by omega)]
    exact ih hm.2.2.2 (by omega)

/-- A write leaves every other address alone. -/
theorem Memory.read_write_of_ne (m : Memory) {a c : Nat} (b : Byte) (h : c ≠ a) :
    (m.write a b).read c = m.read c := by
  induction m with
  | nil =>
    unfold Memory.write
    split
    · rfl
    · rw [Memory.read_cons, if_neg (Ne.symm h)]
  | cons e rest ih =>
    obtain ⟨d, v⟩ := e
    unfold Memory.write
    by_cases h1 : d < a
    · simp only [h1, if_true, Memory.read_cons, ih]
    · by_cases h2 : d = a
      · subst h2
        simp only [if_true, lt_irrefl, if_false]
        split <;> simp [Memory.read_cons, Ne.symm h]
      · simp only [h1, h2, if_false]
        split <;> simp [Memory.read_cons, Ne.symm h]

/-- A read of the address just written gives the byte written. -/
theorem Memory.read_write_same_from {m : Memory} {lo a : Nat} (b : Byte) (hm : Memory.wfFrom lo m = true) :
    (m.write a b).read a = b := by
  induction m generalizing lo with
  | nil =>
    unfold Memory.write
    split
    · next h => exact h.symm
    · simp [Memory.read_cons]
  | cons e rest ih =>
    obtain ⟨d, v⟩ := e
    rw [Memory.wfFrom_cons] at hm
    unfold Memory.write
    by_cases h1 : d < a
    · simp only [h1, if_true, Memory.read_cons, ih hm.2.2.2]
      rw [if_neg (by omega)]
    · by_cases h2 : d = a
      · subst h2
        simp only [lt_irrefl, if_true, if_false]
        split
        · next h => rw [Memory.read_of_lt hm.2.2.2 (by omega)]; exact h.symm
        · simp [Memory.read_cons]
      · simp only [h1, h2, if_false]
        split
        · next h =>
          rw [Memory.read_cons, if_neg h2, Memory.read_of_lt hm.2.2.2 (by omega)]
          exact h.symm
        · simp [Memory.read_cons]

theorem Memory.read_write_same {m : Memory} {a : Nat} (b : Byte) (hm : m.wf = true) : (m.write a b).read a = b :=
  Memory.read_write_same_from b hm

/-- A write inside memory keeps the canonical form above any bound it respects. -/
theorem Memory.wfFrom_write {m : Memory} {lo a : Nat} (b : Byte) (hm : Memory.wfFrom lo m = true) (hlo : lo ≤ a)
    (ha : a < 4096) : Memory.wfFrom lo (m.write a b) = true := by
  induction m generalizing lo with
  | nil =>
    unfold Memory.write
    split
    · rfl
    · next h => exact Memory.wfFrom_cons.2 ⟨hlo, ha, h, rfl⟩
  | cons e rest ih =>
    obtain ⟨d, v⟩ := e
    have hm' := Memory.wfFrom_cons.1 hm
    unfold Memory.write
    by_cases h1 : d < a
    · simp only [h1, if_true]
      exact Memory.wfFrom_cons.2 ⟨hm'.1, hm'.2.1, hm'.2.2.1, ih hm'.2.2.2 (by omega)⟩
    · by_cases h2 : d = a
      · subst h2
        simp only [lt_irrefl, if_true, if_false]
        split
        · exact Memory.wfFrom_mono (by omega) hm'.2.2.2
        · next h => exact Memory.wfFrom_cons.2 ⟨hlo, ha, h, hm'.2.2.2⟩
      · simp only [h1, h2, if_false]
        split
        · exact hm
        · next h =>
          exact Memory.wfFrom_cons.2
            ⟨hlo, ha, h, Memory.wfFrom_cons.2 ⟨by omega, hm'.2.1, hm'.2.2.1, hm'.2.2.2⟩⟩

theorem Memory.wf_write {m : Memory} {a : Nat} (b : Byte) (hm : m.wf = true) (ha : a < 4096) :
    (m.write a b).wf = true :=
  Memory.wfFrom_write b hm (Nat.zero_le a) ha

/-- Storing bytes inside memory keeps the canonical form. -/
theorem Memory.wf_writeBytes {m : Memory} {a : Nat} {bs : List Byte} (hm : m.wf = true) (h : a + bs.length ≤ 4096) :
    (m.writeBytes a bs).wf = true := by
  induction bs generalizing m a with
  | nil => exact hm
  | cons b bs ih =>
    rw [List.length_cons] at h
    exact ih (Memory.wf_write b hm (by omega)) (by omega)

/-- Storing bytes leaves every address outside them alone. -/
theorem Memory.read_writeBytes_outside (m : Memory) {a c : Nat} (bs : List Byte) (h : c < a ∨ a + bs.length ≤ c) :
    (m.writeBytes a bs).read c = m.read c := by
  induction bs generalizing m a with
  | nil => rfl
  | cons b bs ih =>
    rw [List.length_cons] at h
    rw [Memory.writeBytes, ih _ (by omega), Memory.read_write_of_ne _ _ (by omega)]

/-- The bytes stored are read back, each at its own address. -/
theorem Memory.read_writeBytes_inside {m : Memory} {a : Nat} {bs : List Byte} (hm : m.wf = true)
    (h : a + bs.length ≤ 4096) {j : Nat} (hj : j < bs.length) : (m.writeBytes a bs).read (a + j) = bs[j] := by
  induction bs generalizing m a j with
  | nil => exact absurd hj (Nat.not_lt_zero j)
  | cons b bs ih =>
    rw [List.length_cons] at h hj
    rw [Memory.writeBytes]
    cases j with
    | zero =>
      rw [Memory.read_writeBytes_outside _ _ (by omega)]
      exact Memory.read_write_same b hm
    | succ j =>
      have hb : a + 1 + bs.length ≤ 4096 := by omega
      have := ih (Memory.wf_write b hm (by omega : a < 4096)) hb (by omega : j < bs.length)
      rw [List.getElem_cons_succ, ← this]
      congr 1
      omega

@[simp] theorem Memory.length_readBytes (m : Memory) (a n : Nat) : (m.readBytes a n).length = n := by
  induction n generalizing a with
  | zero => rfl
  | succ n ih => simp [Memory.readBytes, ih]

/-- Byte `j` of a block read is the byte at its own address. -/
theorem Memory.getElem_readBytes (m : Memory) {a n j : Nat} (h : j < (m.readBytes a n).length) :
    (m.readBytes a n)[j] = m.read (a + j) := by
  induction n generalizing a j with
  | zero => exact absurd h (Nat.not_lt_zero j)
  | succ n ih =>
    cases j with
    | zero => rfl
    | succ j =>
      have := ih (a := a + 1) (j := j) (by simp [Memory.readBytes] at h; simpa using h)
      simp only [Memory.readBytes, List.getElem_cons_succ, this]
      congr 1
      omega

/-- Reset memory is in canonical form. -/
theorem Memory.wf_reset : State.reset.mem.wf = true := rfl

end Sys2Proof.Machine
end

