-- ==== Sys2Proof/Laws/State.lean ====
section
/-!
SUPPORT. One lemma per field per named update of the state, so that no proof unfolds a record update.
-/

namespace Sys2Proof.Machine

variable (s : State)

@[simp] theorem State.raise_V (f : Fault) : (s.raise f).V = s.V := rfl
@[simp] theorem State.raise_I (f : Fault) : (s.raise f).I = s.I := rfl
@[simp] theorem State.raise_PC (f : Fault) : (s.raise f).PC = s.PC := rfl
@[simp] theorem State.raise_S (f : Fault) : (s.raise f).S = s.S := rfl
@[simp] theorem State.raise_SP (f : Fault) : (s.raise f).SP = s.SP := rfl
@[simp] theorem State.raise_K (f : Fault) : (s.raise f).K = s.K := rfl
@[simp] theorem State.raise_FB (f : Fault) : (s.raise f).FB = s.FB := rfl
@[simp] theorem State.raise_dirty (f : Fault) : (s.raise f).dirty = s.dirty := rfl
@[simp] theorem State.raise_DT (f : Fault) : (s.raise f).DT = s.DT := rfl
@[simp] theorem State.raise_ST (f : Fault) : (s.raise f).ST = s.ST := rfl
@[simp] theorem State.raise_mem (f : Fault) : (s.raise f).mem = s.mem := rfl
@[simp] theorem State.raise_loaded (f : Fault) : (s.raise f).loaded = s.loaded := rfl
@[simp] theorem State.raise_fault (f : Fault) : (s.raise f).fault = some f := rfl
@[simp] theorem State.raise_draws (f : Fault) : (s.raise f).draws = s.draws := rfl

@[simp] theorem State.advance_V : (s.advance).V = s.V := rfl
@[simp] theorem State.advance_I : (s.advance).I = s.I := rfl
@[simp] theorem State.advance_PC : (s.advance).PC = s.PC + 2 := rfl
@[simp] theorem State.advance_S : (s.advance).S = s.S := rfl
@[simp] theorem State.advance_SP : (s.advance).SP = s.SP := rfl
@[simp] theorem State.advance_K : (s.advance).K = s.K := rfl
@[simp] theorem State.advance_FB : (s.advance).FB = s.FB := rfl
@[simp] theorem State.advance_dirty : (s.advance).dirty = s.dirty := rfl
@[simp] theorem State.advance_DT : (s.advance).DT = s.DT := rfl
@[simp] theorem State.advance_ST : (s.advance).ST = s.ST := rfl
@[simp] theorem State.advance_mem : (s.advance).mem = s.mem := rfl
@[simp] theorem State.advance_loaded : (s.advance).loaded = s.loaded := rfl
@[simp] theorem State.advance_fault : (s.advance).fault = s.fault := rfl
@[simp] theorem State.advance_draws : (s.advance).draws = s.draws := rfl

@[simp] theorem State.skipIf_V (c : Bool) : (s.skipIf c).V = s.V := rfl
@[simp] theorem State.skipIf_I (c : Bool) : (s.skipIf c).I = s.I := rfl
@[simp] theorem State.skipIf_PC (c : Bool) : (s.skipIf c).PC = if c then s.PC + 4 else s.PC + 2 := rfl
@[simp] theorem State.skipIf_S (c : Bool) : (s.skipIf c).S = s.S := rfl
@[simp] theorem State.skipIf_SP (c : Bool) : (s.skipIf c).SP = s.SP := rfl
@[simp] theorem State.skipIf_K (c : Bool) : (s.skipIf c).K = s.K := rfl
@[simp] theorem State.skipIf_FB (c : Bool) : (s.skipIf c).FB = s.FB := rfl
@[simp] theorem State.skipIf_dirty (c : Bool) : (s.skipIf c).dirty = s.dirty := rfl
@[simp] theorem State.skipIf_DT (c : Bool) : (s.skipIf c).DT = s.DT := rfl
@[simp] theorem State.skipIf_ST (c : Bool) : (s.skipIf c).ST = s.ST := rfl
@[simp] theorem State.skipIf_mem (c : Bool) : (s.skipIf c).mem = s.mem := rfl
@[simp] theorem State.skipIf_loaded (c : Bool) : (s.skipIf c).loaded = s.loaded := rfl
@[simp] theorem State.skipIf_fault (c : Bool) : (s.skipIf c).fault = s.fault := rfl
@[simp] theorem State.skipIf_draws (c : Bool) : (s.skipIf c).draws = s.draws := rfl

@[simp] theorem State.jumpTo_V (a : Word) : (s.jumpTo a).V = s.V := rfl
@[simp] theorem State.jumpTo_I (a : Word) : (s.jumpTo a).I = s.I := rfl
@[simp] theorem State.jumpTo_PC (a : Word) : (s.jumpTo a).PC = a := rfl
@[simp] theorem State.jumpTo_S (a : Word) : (s.jumpTo a).S = s.S := rfl
@[simp] theorem State.jumpTo_SP (a : Word) : (s.jumpTo a).SP = s.SP := rfl
@[simp] theorem State.jumpTo_K (a : Word) : (s.jumpTo a).K = s.K := rfl
@[simp] theorem State.jumpTo_FB (a : Word) : (s.jumpTo a).FB = s.FB := rfl
@[simp] theorem State.jumpTo_dirty (a : Word) : (s.jumpTo a).dirty = s.dirty := rfl
@[simp] theorem State.jumpTo_DT (a : Word) : (s.jumpTo a).DT = s.DT := rfl
@[simp] theorem State.jumpTo_ST (a : Word) : (s.jumpTo a).ST = s.ST := rfl
@[simp] theorem State.jumpTo_mem (a : Word) : (s.jumpTo a).mem = s.mem := rfl
@[simp] theorem State.jumpTo_loaded (a : Word) : (s.jumpTo a).loaded = s.loaded := rfl
@[simp] theorem State.jumpTo_fault (a : Word) : (s.jumpTo a).fault = s.fault := rfl
@[simp] theorem State.jumpTo_draws (a : Word) : (s.jumpTo a).draws = s.draws := rfl

@[simp] theorem State.setReg_V (x : Reg) (b : Byte) : (s.setReg x b).V = s.V.set x.val b := rfl
@[simp] theorem State.setReg_I (x : Reg) (b : Byte) : (s.setReg x b).I = s.I := rfl
@[simp] theorem State.setReg_PC (x : Reg) (b : Byte) : (s.setReg x b).PC = s.PC := rfl
@[simp] theorem State.setReg_S (x : Reg) (b : Byte) : (s.setReg x b).S = s.S := rfl
@[simp] theorem State.setReg_SP (x : Reg) (b : Byte) : (s.setReg x b).SP = s.SP := rfl
@[simp] theorem State.setReg_K (x : Reg) (b : Byte) : (s.setReg x b).K = s.K := rfl
@[simp] theorem State.setReg_FB (x : Reg) (b : Byte) : (s.setReg x b).FB = s.FB := rfl
@[simp] theorem State.setReg_dirty (x : Reg) (b : Byte) : (s.setReg x b).dirty = s.dirty := rfl
@[simp] theorem State.setReg_DT (x : Reg) (b : Byte) : (s.setReg x b).DT = s.DT := rfl
@[simp] theorem State.setReg_ST (x : Reg) (b : Byte) : (s.setReg x b).ST = s.ST := rfl
@[simp] theorem State.setReg_mem (x : Reg) (b : Byte) : (s.setReg x b).mem = s.mem := rfl
@[simp] theorem State.setReg_loaded (x : Reg) (b : Byte) : (s.setReg x b).loaded = s.loaded := rfl
@[simp] theorem State.setReg_fault (x : Reg) (b : Byte) : (s.setReg x b).fault = s.fault := rfl
@[simp] theorem State.setReg_draws (x : Reg) (b : Byte) : (s.setReg x b).draws = s.draws := rfl

@[simp] theorem State.setIndex_V (a : Word) : (s.setIndex a).V = s.V := rfl
@[simp] theorem State.setIndex_I (a : Word) : (s.setIndex a).I = a := rfl
@[simp] theorem State.setIndex_PC (a : Word) : (s.setIndex a).PC = s.PC := rfl
@[simp] theorem State.setIndex_S (a : Word) : (s.setIndex a).S = s.S := rfl
@[simp] theorem State.setIndex_SP (a : Word) : (s.setIndex a).SP = s.SP := rfl
@[simp] theorem State.setIndex_K (a : Word) : (s.setIndex a).K = s.K := rfl
@[simp] theorem State.setIndex_FB (a : Word) : (s.setIndex a).FB = s.FB := rfl
@[simp] theorem State.setIndex_dirty (a : Word) : (s.setIndex a).dirty = s.dirty := rfl
@[simp] theorem State.setIndex_DT (a : Word) : (s.setIndex a).DT = s.DT := rfl
@[simp] theorem State.setIndex_ST (a : Word) : (s.setIndex a).ST = s.ST := rfl
@[simp] theorem State.setIndex_mem (a : Word) : (s.setIndex a).mem = s.mem := rfl
@[simp] theorem State.setIndex_loaded (a : Word) : (s.setIndex a).loaded = s.loaded := rfl
@[simp] theorem State.setIndex_fault (a : Word) : (s.setIndex a).fault = s.fault := rfl
@[simp] theorem State.setIndex_draws (a : Word) : (s.setIndex a).draws = s.draws := rfl

@[simp] theorem State.tick_V : (s.tick).V = s.V := rfl
@[simp] theorem State.tick_I : (s.tick).I = s.I := rfl
@[simp] theorem State.tick_PC : (s.tick).PC = s.PC := rfl
@[simp] theorem State.tick_S : (s.tick).S = s.S := rfl
@[simp] theorem State.tick_SP : (s.tick).SP = s.SP := rfl
@[simp] theorem State.tick_K : (s.tick).K = s.K := rfl
@[simp] theorem State.tick_FB : (s.tick).FB = s.FB := rfl
@[simp] theorem State.tick_dirty : (s.tick).dirty = s.dirty := rfl
@[simp] theorem State.tick_DT : (s.tick).DT = tickTimer s.DT := rfl
@[simp] theorem State.tick_ST : (s.tick).ST = tickTimer s.ST := rfl
@[simp] theorem State.tick_mem : (s.tick).mem = s.mem := rfl
@[simp] theorem State.tick_loaded : (s.tick).loaded = s.loaded := rfl
@[simp] theorem State.tick_fault : (s.tick).fault = s.fault := rfl
@[simp] theorem State.tick_draws : (s.tick).draws = s.draws := rfl

@[simp] theorem State.countDraw_V : (s.countDraw).V = s.V := rfl
@[simp] theorem State.countDraw_I : (s.countDraw).I = s.I := rfl
@[simp] theorem State.countDraw_PC : (s.countDraw).PC = s.PC := rfl
@[simp] theorem State.countDraw_S : (s.countDraw).S = s.S := rfl
@[simp] theorem State.countDraw_SP : (s.countDraw).SP = s.SP := rfl
@[simp] theorem State.countDraw_K : (s.countDraw).K = s.K := rfl
@[simp] theorem State.countDraw_FB : (s.countDraw).FB = s.FB := rfl
@[simp] theorem State.countDraw_dirty : (s.countDraw).dirty = s.dirty := rfl
@[simp] theorem State.countDraw_DT : (s.countDraw).DT = s.DT := rfl
@[simp] theorem State.countDraw_ST : (s.countDraw).ST = s.ST := rfl
@[simp] theorem State.countDraw_mem : (s.countDraw).mem = s.mem := rfl
@[simp] theorem State.countDraw_loaded : (s.countDraw).loaded = s.loaded := rfl
@[simp] theorem State.countDraw_fault : (s.countDraw).fault = s.fault := rfl
@[simp] theorem State.countDraw_draws : (s.countDraw).draws = s.draws + 1 := rfl

@[simp] theorem State.push_V (a : Word) (h : s.SP.val < 16) : (s.push a h).V = s.V := rfl
@[simp] theorem State.push_I (a : Word) (h : s.SP.val < 16) : (s.push a h).I = s.I := rfl
@[simp] theorem State.push_PC (a : Word) (h : s.SP.val < 16) : (s.push a h).PC = s.PC := rfl
@[simp] theorem State.push_S (a : Word) (h : s.SP.val < 16) : (s.push a h).S = s.S.set s.SP.val a := rfl
@[simp] theorem State.push_SP (a : Word) (h : s.SP.val < 16) : (s.push a h).SP = ⟨s.SP.val + 1, Nat.add_lt_add_right h 1⟩ := rfl
@[simp] theorem State.push_K (a : Word) (h : s.SP.val < 16) : (s.push a h).K = s.K := rfl
@[simp] theorem State.push_FB (a : Word) (h : s.SP.val < 16) : (s.push a h).FB = s.FB := rfl
@[simp] theorem State.push_dirty (a : Word) (h : s.SP.val < 16) : (s.push a h).dirty = s.dirty := rfl
@[simp] theorem State.push_DT (a : Word) (h : s.SP.val < 16) : (s.push a h).DT = s.DT := rfl
@[simp] theorem State.push_ST (a : Word) (h : s.SP.val < 16) : (s.push a h).ST = s.ST := rfl
@[simp] theorem State.push_mem (a : Word) (h : s.SP.val < 16) : (s.push a h).mem = s.mem := rfl
@[simp] theorem State.push_loaded (a : Word) (h : s.SP.val < 16) : (s.push a h).loaded = s.loaded := rfl
@[simp] theorem State.push_fault (a : Word) (h : s.SP.val < 16) : (s.push a h).fault = s.fault := rfl
@[simp] theorem State.push_draws (a : Word) (h : s.SP.val < 16) : (s.push a h).draws = s.draws := rfl

@[simp] theorem State.pop_V (h : 0 < s.SP.val) : ((s.pop h).2).V = s.V := rfl
@[simp] theorem State.pop_I (h : 0 < s.SP.val) : ((s.pop h).2).I = s.I := rfl
@[simp] theorem State.pop_PC (h : 0 < s.SP.val) : ((s.pop h).2).PC = s.PC := rfl
@[simp] theorem State.pop_S (h : 0 < s.SP.val) : ((s.pop h).2).S = s.S := rfl
@[simp] theorem State.pop_SP (h : 0 < s.SP.val) : ((s.pop h).2).SP = ⟨s.SP.val - 1, Nat.lt_of_le_of_lt (Nat.sub_le _ _) s.SP.isLt⟩ := rfl
@[simp] theorem State.pop_K (h : 0 < s.SP.val) : ((s.pop h).2).K = s.K := rfl
@[simp] theorem State.pop_FB (h : 0 < s.SP.val) : ((s.pop h).2).FB = s.FB := rfl
@[simp] theorem State.pop_dirty (h : 0 < s.SP.val) : ((s.pop h).2).dirty = s.dirty := rfl
@[simp] theorem State.pop_DT (h : 0 < s.SP.val) : ((s.pop h).2).DT = s.DT := rfl
@[simp] theorem State.pop_ST (h : 0 < s.SP.val) : ((s.pop h).2).ST = s.ST := rfl
@[simp] theorem State.pop_mem (h : 0 < s.SP.val) : ((s.pop h).2).mem = s.mem := rfl
@[simp] theorem State.pop_loaded (h : 0 < s.SP.val) : ((s.pop h).2).loaded = s.loaded := rfl
@[simp] theorem State.pop_fault (h : 0 < s.SP.val) : ((s.pop h).2).fault = s.fault := rfl
@[simp] theorem State.pop_draws (h : 0 < s.SP.val) : ((s.pop h).2).draws = s.draws := rfl

end Sys2Proof.Machine
end

