-- ==== Sys2Proof/Laws/Ops.lean ====
section
/-!
SUPPORT. One lemma for each shared operation: what it can answer, in the numbers of the spec.
-/

namespace Sys2Proof.Machine

/-- The opcode at `PC` as a number, high byte first (R33). -/
theorem State.toNat_fetchWord (s : State) :
    s.fetchWord.toNat = (s.mem.read s.PC.toNat).toNat * 256 + (s.mem.read (s.PC.toNat + 1)).toNat := by
  have h1 := (s.mem.read s.PC.toNat).isLt
  have h2 := (s.mem.read (s.PC.toNat + 1)).isLt
  simp only [State.fetchWord, wordOfBytes, BitVec.toNat_ofNat]
  omega

/-- A timer after a tick, on numbers: one less, stopping at 0 (R22). -/
theorem toNat_tickTimer (t : Byte) : (tickTimer t).toNat = t.toNat - 1 := by
  unfold tickTimer
  split
  · next h => simp [h]
  · next h =>
    have h0 : t.toNat ≠ 0 := fun e => h (BitVec.eq_of_toNat_eq e)
    have := t.isLt
    rw [BitVec.toNat_sub, show (1 : Byte).toNat = 1 from rfl]
    omega

/-- An access is in range exactly where it touches no byte or its last byte is an address (R37). -/
theorem State.inRange_iff (s : State) (n : Nat) : s.inRange n = true ↔ n = 0 ∨ s.I.toNat + n - 1 ≤ 0xFFF := by
  unfold State.inRange State.lastAddress
  simp only [Bool.or_eq_true, beq_iff_eq, decide_eq_true_eq]
  omega

/-- What a ranged access can do: its effect, or the fault with the highest address and nothing else (R37, R153). -/
theorem State.accessing_cases (s : State) (n : Nat) (effect : State) :
    (s.inRange n = true ∧ s.accessing n effect = effect) ∨
      (s.inRange n = false ∧ s.accessing n effect = s.raise (.memoryOutOfRange (s.lastAddress n))) := by
  unfold State.accessing
  cases h : s.inRange n <;> simp

theorem State.accessing_of_inRange {s : State} {n : Nat} (h : s.inRange n = true) (effect : State) :
    s.accessing n effect = effect := by simp [State.accessing, h]

theorem State.accessing_of_outOfRange {s : State} {n : Nat} (h : s.inRange n = false) (effect : State) :
    s.accessing n effect = s.raise (.memoryOutOfRange (s.lastAddress n)) := by simp [State.accessing, h]

/-- A register after a register write. -/
theorem State.reg_setReg (s : State) (x r : Reg) (b : Byte) :
    (s.setReg x b).reg r = if r = x then b else s.reg r := by
  simp only [State.reg, State.setReg, Vector.getElem_set]
  split <;> split <;> simp_all [Fin.ext_iff]

@[simp] theorem State.reg_advance (s : State) (r : Reg) : s.advance.reg r = s.reg r := rfl

@[simp] theorem State.reg_countDraw (s : State) (r : Reg) : s.countDraw.reg r = s.reg r := rfl

/-- The block of registers stored, byte by byte (R114). -/
theorem State.length_regBlock (s : State) (x : Reg) : (s.regBlock x).length = x.val + 1 := by
  simp only [State.regBlock, List.length_take, Vector.length_toList]
  omega

theorem State.getElem_regBlock (s : State) (x : Reg) {j : Nat} (h : j < (s.regBlock x).length) :
    (s.regBlock x)[j] = s.V[j]'(by rw [State.length_regBlock] at h; omega) := by
  simp [State.regBlock]

/-- A register after a block of bytes has been loaded from register `j` on. -/
theorem getElem_setRegsFrom (v : Vector Byte 16) (j : Nat) (bs : List Byte) {k : Nat} (hk : k < 16) :
    (setRegsFrom v j bs)[k] = if h : j ≤ k ∧ k < j + bs.length then bs[k - j]'(by omega) else v[k] := by
  induction bs generalizing v j with
  | nil => simp only [setRegsFrom, List.length_nil]; rw [dif_neg (by omega)]
  | cons b bs ih =>
    rw [setRegsFrom, ih]
    by_cases h : j = k
    · subst h
      rw [dif_neg (by omega), dif_pos (by simp)]
      simp
    · by_cases h2 : j ≤ k ∧ k < j + (b :: bs).length
      · have h3 : j + 1 ≤ k ∧ k < j + 1 + bs.length := by simp at h2; omega
        rw [dif_pos h2, dif_pos h3]
        obtain ⟨d, hd⟩ : ∃ d, k - j = d + 1 := ⟨k - j - 1, by omega⟩
        have hd' : k - (j + 1) = d := by omega
        simp only [hd, hd', List.getElem_cons_succ]
      · have h3 : ¬ (j + 1 ≤ k ∧ k < j + 1 + bs.length) := by simp at h2; omega
        rw [dif_neg h2, dif_neg h3, Vector.getElem_setIfInBounds]
        simp [h]

/-- The lowest pressed key is pressed and every key below it is not (R132). -/
theorem lowestPressed_eq_some {k : Vector Bool 16} {j : Reg} :
    lowestPressed k = some j ↔ k[j.val] = true ∧ ∀ i : Reg, i < j → k[i.val] = false := by
  unfold lowestPressed
  rw [List.find?_eq_some_iff_getElem]
  constructor
  · rintro ⟨hp, i, hi, he, hl⟩
    refine ⟨hp, fun m hm => ?_⟩
    have hij : i = j.val := by simpa [Fin.ext_iff] using he
    have := hl m.val (by rw [hij]; exact hm)
    simpa using this
  · rintro ⟨hp, hl⟩
    refine ⟨hp, j.val, by simp, by simp, fun m hm => ?_⟩
    have := hl ⟨m, by omega⟩ (by simpa [Fin.lt_def] using hm)
    simpa using this

/-- No key is pressed (R132). -/
theorem lowestPressed_eq_none {k : Vector Bool 16} : lowestPressed k = none ↔ ∀ j : Reg, k[j.val] = false := by
  simp [lowestPressed]

/-- The post-step ticks where no fault was raised, and does nothing where one was (R74). -/
theorem State.postStep_of_none {s : State} (h : s.fault = none) : s.postStep = s.tick := by
  simp [State.postStep, h]

theorem State.postStep_of_some {s : State} {f : Fault} (h : s.fault = some f) : s.postStep = s := by
  simp [State.postStep, h]

/-- The post-step touches the timers only. -/
theorem State.postStep_eq (s : State) : s.postStep = { s with DT := s.postStep.DT, ST := s.postStep.ST } := by
  unfold State.postStep
  split <;> rfl

end Sys2Proof.Machine
end

