-- ==== Sys2Proof/Laws/Display.lean ====
section
/-!
SUPPORT. Drawing a sprite is inverting a list of pixels one by one; what inverting a list of distinct pixels does to the
buffer and to the collision flag.
-/

namespace Sys2Proof.Machine

/-- Two coordinates name one pixel exactly where they agree after wrapping (R122). -/
theorem pixelIndex_eq_iff {x y x' y' : Nat} :
    pixelIndex x y = pixelIndex x' y' ↔ x % 64 = x' % 64 ∧ y % 32 = y' % 32 := by
  simp only [pixelIndex, Fin.mk.injEq]
  omega

/-- Inverting one pixel of the buffer, by flat index. -/
def invertPixel (d : Drawing) (k : Fin 2048) : Drawing where
  collision := d.collision || d.buffer[k.val]
  buffer := d.buffer.set k.val (!d.buffer[k.val])

theorem drawPixel_eq (d : Drawing) (x y : Nat) : drawPixel d x y = invertPixel d (pixelIndex x y) := rfl

/-- A pixel after one inversion. -/
theorem getElem_invertPixel (d : Drawing) (k j : Fin 2048) :
    (invertPixel d k).buffer[j.val] = (d.buffer[j.val] ^^ decide (j = k)) := by
  simp only [invertPixel, Vector.getElem_set]
  by_cases h : k = j
  · subst h; simp
  · have h' : k.val ≠ j.val := fun e => h (Fin.ext e)
    simp [h', Ne.symm h]

/-- The buffer after inverting distinct pixels: exactly those have changed. -/
theorem getElem_foldl_invertPixel {ks : List (Fin 2048)} (hk : ks.Nodup) (d : Drawing) (j : Fin 2048) :
    (ks.foldl invertPixel d).buffer[j.val] = (d.buffer[j.val] ^^ decide (j ∈ ks)) := by
  induction ks generalizing d with
  | nil => simp
  | cons k ks ih =>
    rw [List.nodup_cons] at hk
    rw [List.foldl_cons, ih hk.2, getElem_invertPixel]
    by_cases h : j = k
    · subst h; simp [hk.1]
    · simp [h]

/-- The collision flag after inverting distinct pixels: one of them was set before (R123). -/
theorem collision_foldl_invertPixel {ks : List (Fin 2048)} (hk : ks.Nodup) (d : Drawing) :
    (ks.foldl invertPixel d).collision = true ↔ d.collision = true ∨ ∃ k ∈ ks, d.buffer[k.val] = true := by
  induction ks generalizing d with
  | nil => simp
  | cons k ks ih =>
    rw [List.nodup_cons] at hk
    rw [List.foldl_cons, ih hk.2]
    have same : ∀ j ∈ ks, (invertPixel d k).buffer[j.val] = d.buffer[j.val] := fun j hj => by
      have : j ≠ k := fun e => hk.1 (e ▸ hj)
      simp [getElem_invertPixel, this]
    have hc : (invertPixel d k).collision = true ↔ d.collision = true ∨ d.buffer[k.val] = true := Bool.or_eq_true _ _ ▸ Iff.rfl
    rw [hc]
    constructor
    · rintro ((h | h) | ⟨j, hj, h⟩)
      · exact .inl h
      · exact .inr ⟨k, List.mem_cons_self, h⟩
      · exact .inr ⟨j, List.mem_cons_of_mem _ hj, same j hj ▸ h⟩
    · rintro (h | ⟨j, hj, h⟩)
      · exact .inl (.inl h)
      · rcases List.mem_cons.1 hj with rfl | hj
        · exact .inl (.inr h)
        · exact .inr ⟨j, hj, (same j hj).symm ▸ h⟩

/-- The pixels one row of a sprite inverts, from the left. -/
def rowPixels (b : Byte) (x y : Nat) (cs : List Nat) : List (Fin 2048) :=
  (cs.filter (spriteBit b)).map fun c => pixelIndex (x + c) y

theorem drawColumns_eq_foldl (b : Byte) (x y : Nat) (cs : List Nat) (d : Drawing) :
    drawColumns b x y d cs = (rowPixels b x y cs).foldl invertPixel d := by
  induction cs generalizing d with
  | nil => rfl
  | cons c cs ih =>
    rw [drawColumns, ih]
    cases h : spriteBit b c <;> simp [rowPixels, h, drawPixel_eq]

/-- The pixels a sprite inverts, row by row. -/
def spritePixels (x y : Nat) : List Byte → List (Fin 2048)
  | [] => []
  | b :: bs => rowPixels b x y spriteColumns ++ spritePixels x (y + 1) bs

theorem drawRows_eq_foldl (x y : Nat) (bs : List Byte) (d : Drawing) :
    drawRows x y d bs = (spritePixels x y bs).foldl invertPixel d := by
  induction bs generalizing y d with
  | nil => rfl
  | cons b bs ih => rw [drawRows, ih, drawColumns_eq_foldl, spritePixels, List.foldl_append]

theorem mem_rowPixels {b : Byte} {x y : Nat} {k : Fin 2048} :
    k ∈ rowPixels b x y spriteColumns ↔ ∃ c < 8, spriteBit b c = true ∧ k = pixelIndex (x + c) y := by
  have h8 : ∀ c, c ∈ spriteColumns ↔ c < 8 := fun c => by simp [spriteColumns]; omega
  simp only [rowPixels, List.mem_map, List.mem_filter, h8]
  exact ⟨fun ⟨c, ⟨hc, hb⟩, hk⟩ => ⟨c, hc, hb, hk.symm⟩, fun ⟨c, hc, hb, hk⟩ => ⟨c, ⟨hc, hb⟩, hk.symm⟩⟩

/-- A pixel is inverted by a sprite exactly where some set sprite bit falls on it (R121, R122). -/
theorem mem_spritePixels {x y : Nat} {bs : List Byte} {k : Fin 2048} :
    k ∈ spritePixels x y bs ↔
      ∃ (r : Nat) (_ : r < bs.length) (c : Nat), c < 8 ∧ spriteBit bs[r] c = true ∧ k = pixelIndex (x + c) (y + r) := by
  induction bs generalizing y with
  | nil => simp [spritePixels]
  | cons b bs ih =>
    rw [spritePixels, List.mem_append, mem_rowPixels, ih]
    constructor
    · rintro (⟨c, hc, hb, hk⟩ | ⟨r, hr, c, hc, hb, hk⟩)
      · exact ⟨0, by simp, c, hc, by simpa using hb, by simpa using hk⟩
      · exact ⟨r + 1, by simpa using hr, c, hc, by simpa using hb, by rw [hk]; congr 1; omega⟩
    · rintro ⟨r, hr, c, hc, hb, hk⟩
      cases r with
      | zero => exact .inl ⟨c, hc, by simpa using hb, by simpa using hk⟩
      | succ r => exact .inr ⟨r, by simpa using hr, c, hc, by simpa using hb, by rw [hk]; congr 1; omega⟩

/-- A sprite of at most 32 rows inverts distinct pixels, so it never collides with itself (R121). -/
theorem nodup_spritePixels {x y : Nat} {bs : List Byte} (h : bs.length ≤ 32) : (spritePixels x y bs).Nodup := by
  induction bs generalizing y with
  | nil => simp [spritePixels]
  | cons b bs ih =>
    rw [List.length_cons] at h
    rw [spritePixels, List.nodup_append]
    refine ⟨?_, ih (by omega), ?_⟩
    · refine List.Nodup.map_on ?_ (List.Nodup.filter _ (by decide))
      intro c hc c' hc' e
      have h8 : ∀ c, c ∈ spriteColumns → c < 8 := fun c h => by simp [spriteColumns] at h; omega
      have h1 := h8 c (List.mem_filter.1 hc).1
      have h2 := h8 c' (List.mem_filter.1 hc').1
      have := (pixelIndex_eq_iff.1 e).1
      omega
    · intro k hk k' hk' e
      subst e
      obtain ⟨c, hc, -, e1⟩ := mem_rowPixels.1 hk
      obtain ⟨r, hr, c', hc', -, e2⟩ := mem_spritePixels.1 hk'
      have := (pixelIndex_eq_iff.1 (e1.symm.trans e2)).2
      omega

end Sys2Proof.Machine
end

