-- ==== Sys2Proof/Laws/PerInstr.lean ====
section
/-!
SUPPORT. The family EncodingFits: the number an instruction is encoded as fits one 16-bit word, so that its opcode is that
number (spec/30_encoding.md R50, R59).
-/

namespace Sys2Proof.Laws.EncodingFits

/-- A well-formed instruction's number fits 16 bits, and its opcode is that number. -/
def Statement (i : Instr) : Prop := i.wellFormed = true → encodeNat i < 65536 ∧ (encode i).toNat = encodeNat i

/-- Every constructor's number fits, so that the opcode is the number. -/
theorem of_wellFormed (i : Instr) : Statement i := fun hw => by
  have h : encodeNat i < 65536 := by
    cases i <;> simp only [encodeNat, Instr.wellFormed, decide_eq_true_eq] at hw ⊢ <;> omega
  exact ⟨h, by rw [encode, BitVec.toNat_ofNat, Nat.mod_eq_of_lt h]⟩

theorem cls : Statement (.cls) := of_wellFormed _

theorem ret : Statement (.ret) := of_wellFormed _

theorem jp (nnn : BitVec 12) : Statement (.jp nnn) := of_wellFormed _

theorem call (nnn : BitVec 12) : Statement (.call nnn) := of_wellFormed _

theorem seI (x : Reg) (nn : Byte) : Statement (.seI x nn) := of_wellFormed _

theorem sneI (x : Reg) (nn : Byte) : Statement (.sneI x nn) := of_wellFormed _

theorem seR (x y : Reg) : Statement (.seR x y) := of_wellFormed _

theorem ldI (x : Reg) (nn : Byte) : Statement (.ldI x nn) := of_wellFormed _

theorem addI (x : Reg) (nn : Byte) : Statement (.addI x nn) := of_wellFormed _

theorem ldR (x y : Reg) : Statement (.ldR x y) := of_wellFormed _

theorem orR (x y : Reg) : Statement (.orR x y) := of_wellFormed _

theorem andR (x y : Reg) : Statement (.andR x y) := of_wellFormed _

theorem xorR (x y : Reg) : Statement (.xorR x y) := of_wellFormed _

theorem addR (x y : Reg) : Statement (.addR x y) := of_wellFormed _

theorem sub (x y : Reg) : Statement (.sub x y) := of_wellFormed _

theorem shr (x y : Reg) : Statement (.shr x y) := of_wellFormed _

theorem subn (x y : Reg) : Statement (.subn x y) := of_wellFormed _

theorem shl (x y : Reg) : Statement (.shl x y) := of_wellFormed _

theorem sneR (x y : Reg) : Statement (.sneR x y) := of_wellFormed _

theorem ldIdx (nnn : BitVec 12) : Statement (.ldIdx nnn) := of_wellFormed _

theorem jpV0 (nnn : BitVec 12) : Statement (.jpV0 nnn) := of_wellFormed _

theorem rnd (x : Reg) (nn : Byte) : Statement (.rnd x nn) := of_wellFormed _

theorem drw (x y : Reg) (n : Nat) : Statement (.drw x y n) := of_wellFormed _

theorem skp (x : Reg) : Statement (.skp x) := of_wellFormed _

theorem sknp (x : Reg) : Statement (.sknp x) := of_wellFormed _

theorem ldGetdt (x : Reg) : Statement (.ldGetdt x) := of_wellFormed _

theorem ldKey (x : Reg) : Statement (.ldKey x) := of_wellFormed _

theorem ldSetdt (x : Reg) : Statement (.ldSetdt x) := of_wellFormed _

theorem ldSetst (x : Reg) : Statement (.ldSetst x) := of_wellFormed _

theorem addIdx (x : Reg) : Statement (.addIdx x) := of_wellFormed _

theorem ldGlyph (x : Reg) : Statement (.ldGlyph x) := of_wellFormed _

theorem bcd (x : Reg) : Statement (.bcd x) := of_wellFormed _

theorem stm (x : Reg) : Statement (.stm x) := of_wellFormed _

theorem ldm (x : Reg) : Statement (.ldm x) := of_wellFormed _

end Sys2Proof.Laws.EncodingFits
end

