-- ==== Sys2Proof/Laws/Step.lean ====
section
/-!
SUPPORT. What a step can do, said once: `exec` always answers a next state and either leaves the latch alone or changes nothing
else; a step that answers a next state is one of three cases.
-/

namespace Sys2Proof.Machine

/-- Every instruction answers a next state, in which the latch is as before, or which is the old state with a fault raised. -/
theorem exec_next_cases (i : Instr) (s : State) :
    ∃ t, exec i s = .next t ∧ (t.fault = s.fault ∨ ∃ f, t = s.raise f) := by
  cases i
  case ret | call | skp | sknp =>
    refine ⟨_, rfl, ?_⟩
    split
    · exact .inl rfl
    · exact .inr ⟨_, rfl⟩
  case drw | bcd | stm | ldm =>
    refine ⟨_, rfl, ?_⟩
    unfold State.accessing
    split
    · exact .inl rfl
    · exact .inr ⟨_, rfl⟩
  case ldKey =>
    refine ⟨_, rfl, .inl ?_⟩
    split <;> rfl
  all_goals exact ⟨_, rfl, .inl rfl⟩

/-- The byte argument of a step matters to `CXNN` alone (R101). -/
theorem execWith_of_ne_rnd {i : Instr} (h : ∀ x nn, i ≠ .rnd x nn) (r : Byte) (s : State) : execWith r i s = exec i s := by
  cases i
  case rnd x nn => exact absurd rfl (h x nn)
  all_goals rfl

/-- With a byte argument too, every instruction answers a next state, and leaves the latch alone or changes nothing else. -/
theorem execWith_next_cases (r : Byte) (i : Instr) (s : State) :
    ∃ t, execWith r i s = .next t ∧ (t.fault = s.fault ∨ ∃ f, t = s.raise f) := by
  by_cases h : ∃ x nn, i = .rnd x nn
  · obtain ⟨x, nn, rfl⟩ := h
    exact ⟨_, rfl, .inl rfl⟩
  · rw [execWith_of_ne_rnd fun x nn e => h ⟨x, nn, e⟩]
    exact exec_next_cases i s

/-- The step of a running machine whose opcode decodes. -/
theorem stepBy_of_decoded {run : Instr → State → Result} {p : Config.InvalidOpcodePolicy} {s : State} {i : Instr}
    (hr : s.loaded = true ∧ s.fault = none) (hp : s.PC.toNat ≤ 0xFFE) (hd : decodeWord s.fetchWord = some i) :
    stepBy run p s = finishStep (run i s) := by
  simp [stepBy, hr.1, hr.2, fetchLimit, Nat.not_lt.2 hp, hd]

/-- The step of a running machine whose opcode is invalid. -/
theorem stepBy_of_invalid {run : Instr → State → Result} {p : Config.InvalidOpcodePolicy} {s : State}
    (hr : s.loaded = true ∧ s.fault = none) (hp : s.PC.toNat ≤ 0xFFE) (hd : decodeWord s.fetchWord = none) :
    stepBy run p s = .next (s.takeInvalidOpcode p s.fetchWord) := by
  simp [stepBy, hr.1, hr.2, fetchLimit, Nat.not_lt.2 hp, hd]

theorem step_of_decoded {s : State} {i : Instr} (hr : s.loaded = true ∧ s.fault = none) (hp : s.PC.toNat ≤ 0xFFE)
    (hd : decodeWord s.fetchWord = some i) : step s = finishStep (exec i s) := stepBy_of_decoded hr hp hd

theorem step_of_invalid {s : State} (hr : s.loaded = true ∧ s.fault = none) (hp : s.PC.toNat ≤ 0xFFE)
    (hd : decodeWord s.fetchWord = none) :
    step s = .next (s.takeInvalidOpcode Config.invalidOpcodePolicy s.fetchWord) := stepBy_of_invalid hr hp hd

/-- An invalid opcode leaves the state alone or raises the fault. -/
theorem State.takeInvalidOpcode_cases (s : State) (p : Config.InvalidOpcodePolicy) (op : Word) :
    s.takeInvalidOpcode p op = s ∨ s.takeInvalidOpcode p op = s.raise (.invalidOpcode op) := by
  cases p
  · exact .inl rfl
  · exact .inr rfl

/-- A step that answers a next state was made by a running machine, and fetched beyond memory, met an invalid opcode, or ran
the decoded instruction and its post-step. -/
theorem stepBy_next_cases {run : Instr → State → Result} {p : Config.InvalidOpcodePolicy} {s t : State}
    (hrun : ∀ i, ∃ u, run i s = .next u) (h : stepBy run p s = .next t) :
    (s.loaded = true ∧ s.fault = none) ∧
      ((0xFFE < s.PC.toNat ∧ t = s.raise (.fetchOutOfRange s.PC)) ∨
       (s.PC.toNat ≤ 0xFFE ∧ decodeWord s.fetchWord = none ∧ t = s.takeInvalidOpcode p s.fetchWord) ∨
       (s.PC.toNat ≤ 0xFFE ∧ ∃ i u, decodeWord s.fetchWord = some i ∧ run i s = .next u ∧ t = u.postStep)) := by
  unfold stepBy at h
  split at h
  · next hl =>
    split at h
    · cases h
    · next hf =>
      refine ⟨⟨hl, hf⟩, ?_⟩
      split at h
      · next hp => injection h with h; exact .inl ⟨hp, h.symm⟩
      · next hp =>
        have hp' : s.PC.toNat ≤ 0xFFE := Nat.not_lt.1 hp
        split at h
        · next hd => injection h with h; exact .inr (.inl ⟨hp', hd, h.symm⟩)
        · next i hd =>
          obtain ⟨u, hu⟩ := hrun i
          rw [hu, finishStep] at h
          injection h with h
          exact .inr (.inr ⟨hp', i, u, hd, hu, h.symm⟩)
  · cases h

theorem step_next_cases {s t : State} (h : step s = .next t) :
    (s.loaded = true ∧ s.fault = none) ∧
      ((0xFFE < s.PC.toNat ∧ t = s.raise (.fetchOutOfRange s.PC)) ∨
       (s.PC.toNat ≤ 0xFFE ∧ decodeWord s.fetchWord = none ∧
         t = s.takeInvalidOpcode Config.invalidOpcodePolicy s.fetchWord) ∨
       (s.PC.toNat ≤ 0xFFE ∧ ∃ i u, decodeWord s.fetchWord = some i ∧ exec i s = .next u ∧ t = u.postStep)) :=
  stepBy_next_cases (fun i => (exec_next_cases i s).imp fun _ h => h.1) h

/-- The same of a step with its byte as an argument. -/
theorem stepWith_next_cases {s t : State} {r : Byte} (h : s.stepWith r = .next t) :
    (s.loaded = true ∧ s.fault = none) ∧
      ((0xFFE < s.PC.toNat ∧ t = s.raise (.fetchOutOfRange s.PC)) ∨
       (s.PC.toNat ≤ 0xFFE ∧ decodeWord s.fetchWord = none ∧
         t = s.takeInvalidOpcode Config.invalidOpcodePolicy s.fetchWord) ∨
       (s.PC.toNat ≤ 0xFFE ∧ ∃ i u, decodeWord s.fetchWord = some i ∧ execWith r i s = .next u ∧ t = u.postStep)) :=
  stepBy_next_cases (fun i => (execWith_next_cases r i s).imp fun _ h => h.1) h

end Sys2Proof.Machine
end

