-- ==== Sys2Proof/Tests/Slice0.lean ====
section
/-!
SUPPORT. The model's own tests: the well-formedness checks, every instruction's word written out from spec/30_encoding.md R55,
rows of spec/95_test_vectors.md one step each, and for every obligation with hypotheses a state that meets them. Expected
results are the spec's.
-/

set_option Elab.async false

namespace Sys2Proof.Tests

open Sys2Proof Sys2Proof.Machine

/-! ## Helpers -/

/-- The reset state with an opcode at 0x200. -/
def boot (op : Nat) : State := State.reset.withFetchWord 16 op

/-- The state with one register written. -/
def with1 (x : Reg) (b : Byte) (s : State) : State := s.setReg x b

/-- The outcome is a next state that passes the check. -/
def passes (o : Result) (p : State → Bool) : Bool :=
  match o with
  | .next t => p t
  | .fault _ => false
  | .refused _ => false

/-- The step answers a next state that passes the check. -/
def runs (s : State) (p : State → Bool) : Bool := passes (step s) p

/-- The step under a policy answers a next state that passes the check. -/
def runsUnder (q : Config.InvalidOpcodePolicy) (s : State) (p : State → Bool) : Bool := passes (stepUnder q s) p

/-- The step answers this fault. -/
def faults (s : State) (f : Fault) : Bool :=
  match step s with
  | .next _ => false
  | .fault g => decide (g = f)
  | .refused _ => false

/-- A register and VF, as numbers. -/
def regs (s : State) (x : Reg) : Nat × Nat := ((s.reg x).toNat, (s.reg VF).toNat)

/-- A state in which `runs` succeeds has a next state that passes the check. -/
theorem next_of_runs {s : State} {p : State → Bool} (h : runs s p = true) : ∃ t, step s = .next t ∧ p t = true := by
  unfold runs passes at h
  split at h
  · exact ⟨_, ‹_›, h⟩
  · cases h
  · cases h

/-! ## Well-formed terms -/

theorem test_wf_drw_count_16_refused : (Instr.drw 0 0 16).wellFormed = false := by decide

theorem test_wf_drw_count_15_accepted : (Instr.drw 15 15 15).wellFormed = true := by decide

/-! ## Decoding: each row's word, its two bytes written bit by bit from R55 -/

theorem test_decode_family_0 :
    decodeWord (wordOfBytes 0b00000000 0b11100000) = some .cls ∧
    decodeWord (wordOfBytes 0b00000000 0b11101110) = some .ret := by decide

theorem test_decode_families_1_2_A_B :
    decodeWord (wordOfBytes 0b00010010 0b00110100) = some (.jp 0x234) ∧
    decodeWord (wordOfBytes 0b00101111 0b00000001) = some (.call 0xF01) ∧
    decodeWord (wordOfBytes 0b10101000 0b00000101) = some (.ldIdx 0x805) ∧
    decodeWord (wordOfBytes 0b10110111 0b11111110) = some (.jpV0 0x7FE) := by decide

theorem test_decode_families_3_4_5_9 :
    decodeWord (wordOfBytes 0b00111010 0b01010101) = some (.seI 0xA 0x55) ∧
    decodeWord (wordOfBytes 0b01000001 0b10000000) = some (.sneI 0x1 0x80) ∧
    decodeWord (wordOfBytes 0b01010010 0b11010000) = some (.seR 0x2 0xD) ∧
    decodeWord (wordOfBytes 0b10011011 0b01000000) = some (.sneR 0xB 0x4) := by decide

theorem test_decode_families_6_7_C :
    decodeWord (wordOfBytes 0b01101010 0b01111011) = some (.ldI 0xA 0x7B) ∧
    decodeWord (wordOfBytes 0b01110011 0b00000010) = some (.addI 0x3 0x02) ∧
    decodeWord (wordOfBytes 0b11000101 0b11110000) = some (.rnd 0x5 0xF0) := by decide

theorem test_decode_family_8 :
    decodeWord (wordOfBytes 0b10000001 0b00100000) = some (.ldR 1 2) ∧
    decodeWord (wordOfBytes 0b10000001 0b00100001) = some (.orR 1 2) ∧
    decodeWord (wordOfBytes 0b10000001 0b00100010) = some (.andR 1 2) ∧
    decodeWord (wordOfBytes 0b10000001 0b00100011) = some (.xorR 1 2) ∧
    decodeWord (wordOfBytes 0b10000001 0b00100100) = some (.addR 1 2) ∧
    decodeWord (wordOfBytes 0b10000001 0b00100101) = some (.sub 1 2) ∧
    decodeWord (wordOfBytes 0b10000001 0b00100110) = some (.shr 1 2) ∧
    decodeWord (wordOfBytes 0b10000001 0b00100111) = some (.subn 1 2) ∧
    decodeWord (wordOfBytes 0b10000001 0b00101110) = some (.shl 1 2) := by decide

theorem test_decode_families_D_E :
    decodeWord (wordOfBytes 0b11010001 0b00100101) = some (.drw 1 2 5) ∧
    decodeWord (wordOfBytes 0b11100110 0b10011110) = some (.skp 6) ∧
    decodeWord (wordOfBytes 0b11100110 0b10100001) = some (.sknp 6) := by decide

theorem test_decode_family_F :
    decodeWord (wordOfBytes 0b11110111 0b00000111) = some (.ldGetdt 7) ∧
    decodeWord (wordOfBytes 0b11110111 0b00001010) = some (.ldKey 7) ∧
    decodeWord (wordOfBytes 0b11110111 0b00010101) = some (.ldSetdt 7) ∧
    decodeWord (wordOfBytes 0b11110111 0b00011000) = some (.ldSetst 7) ∧
    decodeWord (wordOfBytes 0b11110111 0b00011110) = some (.addIdx 7) ∧
    decodeWord (wordOfBytes 0b11110111 0b00101001) = some (.ldGlyph 7) ∧
    decodeWord (wordOfBytes 0b11110111 0b00110011) = some (.bcd 7) ∧
    decodeWord (wordOfBytes 0b11110111 0b01010101) = some (.stm 7) ∧
    decodeWord (wordOfBytes 0b11110111 0b01100101) = some (.ldm 7) := by decide

/-- X1 to X7. -/
theorem test_decode_rejects_invalid_opcodes :
    ([0x0000, 0x00E1, 0x00FF, 0x0123, 0x5AB1, 0x9AB1, 0x8AB8, 0x8ABF, 0xE19F, 0xE000, 0xF1FF, 0xF000, 0xF075] : List Word).all
      (fun op => decodeWord op == none) = true := by decide

/-- R55: the patterns are pairwise disjoint: no two rows agree where both masks compare. -/
theorem test_opcode_map_rows_are_disjoint :
    opcodeMap.Pairwise fun p q => p.2 &&& q.1 ≠ q.2 &&& p.1 := by decide

/-- R33: the first byte at the lower address is the high byte. -/
theorem test_encode_bytes_big_endian : encodeBytes (.ldI 0 0x05) = [0x60, 0x05] := by decide

theorem test_table_word : decodeTableWord 16 0x8376 = some (.shr 3 7) := by decide

/-! ## Reset and load -/

/-- R26. -/
theorem test_reset_registers :
    State.reset.PC = 0x200 ∧ State.reset.I = 0 ∧ State.reset.SP = 0 ∧ State.reset.dirty = true ∧ State.reset.DT = 0 ∧
    State.reset.ST = 0 ∧ State.reset.loaded = true ∧ State.reset.fault = none ∧ State.reset.mem.wf = true := by decide

/-- S1: the ROM `60 05 12 02`. -/
theorem test_load_places_the_rom :
    ((State.reset.resetAndLoad [0x60, 0x05, 0x12, 0x02]).2.mem.readBytes 0x200 5) = [0x60, 0x05, 0x12, 0x02, 0x00] := by
  decide +kernel

/-- R157, F4: a latched fault is reported again. -/
theorem test_latched_fault_again :
    faults { boot 0x6A7B with fault := some (.stackOverflow 0x200) } (.stackOverflow 0x200) = true := by decide +kernel

/-- F1, T18: an instruction at the top of memory completes. -/
theorem test_step_at_top_of_memory :
    runs ({ State.reset with PC := 0xFFE }.withFetchWord 16 0x3000) (fun t => t.PC == 0x1002) = true := by decide +kernel

/-- F2. -/
theorem test_fetch_out_of_range :
    runs { State.reset with PC := 0xFFF } (fun t => t.PC == 0xFFF && t.fault == some (.fetchOutOfRange 0xFFF)) = true := by
  decide +kernel

/-- P5 and the timer check of section 2.6. -/
theorem test_invalid_opcode_policies :
    runsUnder .stall { State.reset with DT := 5 } (fun t => t.DT == 5 && t.PC == 0x200 && t.fault == none) = true ∧
    runsUnder .fault { State.reset with DT := 5 }
      (fun t => t.DT == 5 && t.PC == 0x200 && t.fault == some (.invalidOpcode 0)) = true := by decide +kernel

/-! ## Control transfer -/

/-- T1. -/
theorem test_jp : runs (boot 0x1FFF) (fun t => t.PC == 0x0FFF) = true := by decide +kernel

/-- T3. -/
theorem test_call_last_slot :
    runs { boot 0x2ABC with SP := 15 } (fun t => t.S[15] == 0x200 && t.SP == 16 && t.PC == 0xABC) = true := by
  decide +kernel

/-- T4. -/
theorem test_call_overflow :
    runs { boot 0x2ABC with SP := 16 } (fun t => t.fault == some (.stackOverflow 0x200) && t.SP == 16 && t.PC == 0x200) =
      true := by decide +kernel

/-- T7. -/
theorem test_ret_wraps :
    runs { boot 0x00EE with SP := 16, S := State.reset.S.set 15 0xFFFE } (fun t => t.SP == 15 && t.PC == 0x0000) = true := by
  decide +kernel

/-- T5. -/
theorem test_ret_underflow :
    runs (boot 0x00EE) (fun t => t.fault == some (.stackUnderflow 0x200) && t.PC == 0x200) = true := by decide +kernel

/-- T9. -/
theorem test_jp_v0_not_reduced : runs (with1 0 0xFF (boot 0xBFFF)) (fun t => t.PC == 0x10FE) = true := by decide +kernel

/-- T10, T11. -/
theorem test_se_i :
    runs (with1 0xA 0x55 (boot 0x3A55)) (fun t => t.PC == 0x204) = true ∧
    runs (with1 0xA 0x54 (boot 0x3A55)) (fun t => t.PC == 0x202) = true := by decide +kernel

/-- T12, T13. -/
theorem test_sne_i :
    runs (with1 0xA 0x55 (boot 0x4A55)) (fun t => t.PC == 0x202) = true ∧
    runs (with1 0xA 0x54 (boot 0x4A55)) (fun t => t.PC == 0x204) = true := by decide +kernel

/-- T14, T15. -/
theorem test_se_r :
    runs (with1 0xA 7 (with1 0xB 7 (boot 0x5AB0))) (fun t => t.PC == 0x204) = true ∧
    runs (with1 0xA 7 (with1 0xB 8 (boot 0x5AB0))) (fun t => t.PC == 0x202) = true := by decide +kernel

/-- T16, T17. -/
theorem test_sne_r :
    runs (with1 0xA 7 (with1 0xB 7 (boot 0x9AB0))) (fun t => t.PC == 0x202) = true ∧
    runs (with1 0xA 7 (with1 0xB 8 (boot 0x9AB0))) (fun t => t.PC == 0x204) = true := by decide +kernel

/-! ## ALU -/

/-- S2. -/
theorem test_ld_i : runs (boot 0x6A7B) (fun t => t.reg 0xA == 0x7B && t.PC == 0x202) = true := by decide +kernel

/-- S3, A1. -/
theorem test_add_i_wraps :
    runs (with1 3 0xFF (boot 0x7302)) (fun t => regs t 3 == (0x01, 0)) = true ∧
    runs (with1 VF 1 (boot 0x7FFF)) (fun t => regs t VF == (0, 0)) = true := by decide +kernel

/-- A2. -/
theorem test_ld_r : runs (with1 3 1 (with1 5 0x77 (boot 0x8350))) (fun t => t.reg 3 == 0x77 && t.reg 5 == 0x77) = true := by
  decide +kernel

/-- A3. -/
theorem test_or : runs (with1 0xA 0xF0 (with1 0xB 0x0F (with1 VF 7 (boot 0x8AB1)))) (fun t => regs t 0xA == (0xFF, 7)) = true :=
  by decide +kernel

/-- A4. -/
theorem test_and : runs (with1 0xA 0xF0 (with1 0xB 0x3C (with1 VF 7 (boot 0x8AB2)))) (fun t => regs t 0xA == (0x30, 7)) = true :=
  by decide +kernel

/-- A5. -/
theorem test_xor : runs (with1 0xA 0xFF (with1 0xB 0x0F (with1 VF 7 (boot 0x8AB3)))) (fun t => regs t 0xA == (0xF0, 7)) = true :=
  by decide +kernel

/-- A6, A8. -/
theorem test_add_r_carry :
    runs (with1 1 0x80 (with1 2 0x80 (boot 0x8124))) (fun t => regs t 1 == (0x00, 1)) = true ∧
    runs (with1 1 0xFF (with1 VF 1 (boot 0x81F4))) (fun t => regs t 1 == (0x00, 1)) = true := by decide +kernel

/-- A9, A10: where X is F the carry stands. -/
theorem test_add_r_into_vf :
    runs (with1 1 0x02 (with1 VF 0xFF (boot 0x8F14))) (fun t => t.reg VF == 1) = true ∧
    runs (with1 1 0x02 (with1 VF 0x10 (boot 0x8F14))) (fun t => t.reg VF == 0) = true := by decide +kernel

/-- S6, A11. -/
theorem test_sub_borrow :
    runs (with1 1 1 (with1 2 2 (boot 0x8125))) (fun t => regs t 1 == (0xFF, 0)) = true ∧
    runs (with1 1 0x80 (boot 0x8115)) (fun t => regs t 1 == (0, 1)) = true := by decide +kernel

/-- A13, A14: where X is F the difference stands. -/
theorem test_sub_into_vf :
    runs (with1 1 3 (with1 VF 5 (boot 0x8F15))) (fun t => t.reg VF == 2) = true ∧
    runs (with1 1 5 (with1 VF 3 (boot 0x8F15))) (fun t => t.reg VF == 0xFE) = true := by decide +kernel

/-- A15, A16. -/
theorem test_subn :
    runs (with1 1 2 (with1 2 5 (boot 0x8127))) (fun t => regs t 1 == (3, 1)) = true ∧
    runs (with1 1 5 (with1 2 2 (boot 0x8127))) (fun t => regs t 1 == (0xFD, 0)) = true := by decide +kernel

/-- A19. -/
theorem test_shr_ignores_y :
    runs (with1 3 5 (with1 7 0xAA (boot 0x8376))) (fun t => regs t 3 == (2, 1) && t.reg 7 == 0xAA) = true := by decide +kernel

/-- A21, A22. -/
theorem test_shl :
    runs (with1 3 0x81 (boot 0x830E)) (fun t => regs t 3 == (2, 1)) = true ∧
    runs (with1 VF 0x81 (boot 0x8F0E)) (fun t => t.reg VF == 2) = true := by decide +kernel

/-- A23, A25. -/
theorem test_rnd :
    passes ((boot 0xC30F).stepWith 0xA7) (fun t => t.reg 3 == 0x07 && t.PC == 0x202) = true ∧
    passes ((with1 3 9 (boot 0xC300)).stepWith 0xA7) (fun t => t.reg 3 == 0) = true := by decide +kernel

/-! ## Index register and memory -/

/-- M1. -/
theorem test_ld_idx : runs (boot 0xAFFF) (fun t => t.I == 0xFFF) = true := by decide +kernel

/-- M2, M4. -/
theorem test_add_idx :
    runs (with1 1 1 { boot 0xF11E with I := 0xFFF }) (fun t => t.I == 0x1000 && t.reg VF == 0) = true ∧
    runs (with1 VF 0x20 { boot 0xFF1E with I := 0xFFF0 }) (fun t => t.I == 0x0010 && t.reg VF == 0x20) = true := by
  decide +kernel

/-- M6. -/
theorem test_ld_glyph_unmasked : runs (with1 1 0xFF (boot 0xF129)) (fun t => t.I == 0x4FB) = true := by decide +kernel

/-- M9. -/
theorem test_bcd_top_of_memory :
    runs (with1 1 255 { boot 0xF133 with I := 0xFFD }) (fun t => t.mem.readBytes 0xFFD 3 == [2, 5, 5] && t.I == 0xFFD) =
      true := by decide +kernel

/-- M10. -/
theorem test_bcd_out_of_range :
    runs (with1 1 255 { boot 0xF133 with I := 0xFFE })
      (fun t => t.fault == some (.memoryOutOfRange 0x1000) && t.mem.readBytes 0xFFE 2 == [0, 0] && t.PC == 0x200) = true := by
  decide +kernel

/-- M17. -/
theorem test_stm :
    runs (with1 0 0x11 (with1 1 0x22 (with1 2 0x33 (with1 3 0x44 { boot 0xF255 with I := 0x300 }))))
      (fun t => t.mem.readBytes 0x300 4 == [0x11, 0x22, 0x33, 0] && t.I == 0x303) = true := by decide +kernel

/-- M12. -/
theorem test_stm_out_of_range :
    runs { boot 0xFF55 with I := 0xFF1 } (fun t => t.fault == some (.memoryOutOfRange 0x1000) && t.I == 0xFF1) = true := by
  decide +kernel

/-- P2, step 6. -/
theorem test_ldm :
    runs (with1 3 9 { boot 0xF265 with I := 0x300, mem := (boot 0xF265).mem.writeBytes 0x300 [2, 3, 4, 5] })
      (fun t => t.reg 0 == 2 && t.reg 1 == 3 && t.reg 2 == 4 && t.reg 3 == 9 && t.I == 0x303) = true := by decide +kernel

/-- M16. -/
theorem test_ldm_out_of_range :
    runs { boot 0xF165 with I := 0xFFF } (fun t => t.fault == some (.memoryOutOfRange 0x1000) && t.I == 0xFFF) = true := by
  decide +kernel

/-! ## Display -/

/-- The reset state with an opcode at 0x200, `I` at 0x300 and a sprite there. -/
def sprite (op : Nat) (bytes : List Byte) : State :=
  { boot op with I := 0x300, mem := (boot op).mem.writeBytes 0x300 bytes }

/-- G1. -/
theorem test_cls :
    runs { boot 0x00E0 with FB := State.reset.FB.set 70 true, dirty := false }
      (fun t => !t.FB.pixel 6 1 && t.dirty && t.PC == 0x202) = true := by decide +kernel

/-- G2. -/
theorem test_drw_wraps_in_its_row :
    runs (with1 0 60 (with1 1 31 (sprite 0xD011 [0xFF])))
      (fun t => t.FB.pixel 63 31 && t.FB.pixel 3 31 && !t.FB.pixel 4 31 && !t.FB.pixel 0 0 && t.reg VF == 0) = true := by
  decide +kernel

/-- G5. -/
theorem test_drw_collision :
    runs { sprite 0xD011 [0xC0] with FB := State.reset.FB.set 1 true, dirty := false }
      (fun t => t.FB.pixel 0 0 && !t.FB.pixel 1 0 && t.reg VF == 1 && t.dirty) = true := by decide +kernel

/-! ## Keypad and timers -/

/-- K1, K3. -/
theorem test_skp :
    runs (with1 1 15 { boot 0xE19E with K := State.reset.K.set 15 true }) (fun t => t.PC == 0x204) = true ∧
    runs (boot 0xE19E) (fun t => t.PC == 0x202) = true := by decide +kernel

/-- K2, K6. -/
theorem test_sknp :
    runs (with1 1 15 { boot 0xE1A1 with K := State.reset.K.set 15 true }) (fun t => t.PC == 0x202) = true ∧
    runs (with1 1 0xFF (boot 0xE1A1)) (fun t => t.fault == some (.keyIndexOutOfRange 255)) = true := by decide +kernel

/-- K8. -/
theorem test_ld_key_takes_the_lowest :
    runs { boot 0xF10A with K := (State.reset.K.set 3 true).set 12 true, DT := 3 }
      (fun t => t.reg 1 == 3 && t.PC == 0x202 && t.DT == 2) = true := by decide +kernel

/-- K7. -/
theorem test_ld_key_waits :
    runs { boot 0xF10A with DT := 3, ST := 1 } (fun t => t.PC == 0x200 && t.reg 1 == 0 && t.DT == 2 && t.ST == 0) = true := by
  decide +kernel

/-- K11. -/
theorem test_ld_getdt : runs { boot 0xF107 with DT := 1 } (fun t => t.reg 1 == 1 && t.DT == 0) = true := by decide +kernel

/-- K13, K15. -/
theorem test_ld_setdt :
    runs { boot 0xF115 with DT := 9 } (fun t => t.DT == 0) = true ∧
    runs (with1 1 255 (boot 0xF115)) (fun t => t.DT == 254) = true := by decide +kernel

/-- K16. -/
theorem test_ld_setst : runs (with1 1 2 { boot 0xF118 with DT := 7 }) (fun t => t.ST == 1 && t.DT == 6) = true := by
  decide +kernel

/-! ## Ports -/

/-- K1 by the strobe of R149: bit 15 of the port `key` is key 15. -/
theorem test_strobe_samples_key :
    (match (with1 1 15 (boot 0xE19E)).stepStrobe 0x8000 0 with
      | .ok (t, o) => t.PC == 0x204 && o == reportOutputs .ok
      | .error _ => false) = true := by decide +kernel

/-! ## States that meet the hypotheses of the obligations, each clause at the ends of its range -/

/-- For `DecodeReadsBackEveryEncoding`. -/
theorem witness_well_formed : (Instr.drw 15 15 15).wellFormed = true ∧ (Instr.drw 0 0 0).wellFormed = true := by decide

/-- For `EncodeSpellsEveryDecodedWord`. -/
theorem witness_decoded_word : decodeWord 0xFF65 = some (.ldm 15) := by decide

/-- For `DecodeFollowsTheOpcodeMap`: the last row. -/
theorem witness_map_row : ∃ h : 33 < opcodeMap.length, (0xFF65 : Word) &&& opcodeMap[33].1 = opcodeMap[33].2 := by decide

/-- For `LoadGivesEveryElementItsResetValue`, `LoadForgetsEverythingBefore`: the longest ROM that fits. -/
theorem witness_longest_rom : ∃ rom : List Byte, rom.length = 3584 ∧ rom.length ≤ 3584 :=
  ⟨_, List.length_replicate (n := 3584) (a := 0), Nat.le_of_eq List.length_replicate⟩

/-- For `OversizedRomLeavesTheMachineUnloaded` (its first clause has the witness above) and the last clause of
`LoadGivesEveryElementItsResetValue`: one byte more; and an event that is no load. -/
theorem witness_oversized_rom :
    ∃ rom : List Byte, rom.length = 3585 ∧ 3584 < rom.length ∧ ∀ rom', Event.takeFrame ≠ .resetAndLoad rom' :=
  ⟨_, List.length_replicate (n := 3585) (a := 0), Nat.le_of_eq List.length_replicate.symm, fun _ h => by cases h⟩

/-- For the host operations. -/
theorem witness_loaded : State.reset.loaded = true := rfl

/-- A state with a latched fault. -/
def stopped : State := { State.reset with fault := some (.stackOverflow 0x200) }

/-- For `OnlyALoadLeavesAFault`, with an event that changes a key. -/
theorem witness_event_after_fault :
    stopped.loaded = true ∧ stopped.fault = some (.stackOverflow 0x200) ∧
    (∀ rom, Event.setKey 3 true ≠ .resetAndLoad rom) ∧ ∃ t, stopped.after (.setKey 3 true) = some t :=
  ⟨rfl, rfl, by simp, _, rfl⟩

/-- For the clauses of `StepStrobeSamplesThePorts`: a strobe that steps, one on a stopped machine, one while nothing is
loaded. -/
theorem witness_strobes :
    (∃ t, State.stepWith { boot 0xE19E with K := keysFromPort 0x8000 } 0xA7 = .next t) ∧
    State.stepWith { stopped with K := keysFromPort 0x8000 } 0xA7 = .fault (.stackOverflow 0x200) ∧
    State.reset.loaded = true ∧ ({ State.reset with loaded := false } : State).loaded = false := ⟨⟨_, rfl⟩, rfl, rfl, rfl⟩

/-- For `LatchedFaultStopsEveryStep`. -/
theorem witness_latched : stopped.loaded = true ∧ stopped.fault = some (.stackOverflow 0x200) := ⟨rfl, rfl⟩

/-- The highest address an instruction is fetched from. -/
def top : State := { State.reset with PC := 0xFFE }.withFetchWord 16 0x6A7B

/-- For `StepRunsTheDecodedInstruction`, at the highest `PC`. -/
theorem witness_step_runs :
    top.running ∧ top.PC.toNat ≤ 0xFFE ∧
    decodeWord (BitVec.ofNat 16 ((top.mem.read top.PC.toNat).toNat * 256 + (top.mem.read (top.PC.toNat + 1)).toNat)) =
      some (.ldI 0xA 0x7B) ∧ ∃ t, exec (.ldI 0xA 0x7B) top = .next t :=
  ⟨by decide +kernel, by decide +kernel, by decide +kernel, _, rfl⟩

/-- For `FetchBeyondMemoryLatches`, at the lowest `PC` it speaks of. -/
theorem witness_fetch_beyond : (({ State.reset with PC := 0xFFF } : State)).running ∧ 0xFFE < (0xFFF : Word).toNat := by
  decide +kernel

/-- For `InvalidOpcodeFollowsThePolicy`: reset memory. -/
theorem witness_invalid_opcode :
    State.reset.running ∧ State.reset.PC.toNat ≤ 0xFFE ∧ decodeWord State.reset.fetchWord = none := by decide +kernel

/-- For the first clause of `FaultingStepChangesOnlyTheLatch` and the fault case of `TimersTickOncePerCompletedStep`: a return
on an empty stack. -/
theorem witness_faulting_step :
    ∃ t, step (boot 0x00EE) = .next t ∧ (t.fault == some (.stackUnderflow 0x200)) = true := next_of_runs (by decide +kernel)

/-- For the second clause of `FaultingStepChangesOnlyTheLatch`: an invalid opcode, under either policy. -/
theorem witness_reported_step :
    (∃ t, step State.reset = .next t) ∧ stepReport State.reset = .ok (.invalidOpcode 0) ∧
    (Report.invalidOpcode 0 ≠ .ok) := ⟨⟨_, rfl⟩, rfl, by decide⟩

/-- For the step clauses of `DirtyTellsOfDisplayInstructionsSinceTheDrain`; its last two hold of the reset state, `witness_no_tick`
and `witness_loaded`. -/
theorem witness_display_step :
    (boot 0x00E0).PC.toNat ≤ 0xFFE ∧ decodeWord (boot 0x00E0).fetchWord = some .cls ∧ touchesDisplay .cls = true ∧
    ∃ t, step (boot 0x00E0) = .next t ∧ (t.fault == none) = true :=
  ⟨by decide +kernel, by decide +kernel, rfl, next_of_runs (by decide +kernel)⟩

/-- For `RunningMachineAlwaysHasASuccessor`. -/
theorem witness_running : State.reset.running := by decide +kernel

/-- For the first clause of `TimersTickOncePerCompletedStep`. -/
theorem witness_timer_step :
    (boot 0xF115).running ∧ (boot 0xF115).PC.toNat ≤ 0xFFE ∧ decodeWord (boot 0xF115).fetchWord = some (.ldSetdt 1) ∧
    ∃ t, step (boot 0xF115) = .next t ∧ (t.fault == none) = true :=
  ⟨by decide +kernel, by decide +kernel, by decide +kernel, next_of_runs (by decide +kernel)⟩

/-- For the second clause of `TimersTickOncePerCompletedStep`, its invalid opcode case. -/
theorem witness_no_tick :
    (∃ t, step State.reset = .next t) ∧ State.reset.PC.toNat ≤ 0xFFE ∧ decodeWord State.reset.fetchWord = none :=
  ⟨⟨_, rfl⟩, by decide +kernel, by decide +kernel⟩

/-- For the third clause of `OnlyRandomReadsTheFreeByte`: a step that does read its byte. -/
theorem witness_reads_the_byte : ∃ t, (boot 0xC30F).stepWith 0xA7 = .next t := ⟨_, rfl⟩

/-- For the other clauses of `OnlyRandomReadsTheFreeByte`. -/
theorem witness_reads_no_free_byte :
    (∀ x nn, decodeWord top.fetchWord ≠ some (.rnd x nn)) ∧ ∃ t, step top = .next t ∧ (t.PC == 0x1000) = true := by
  refine ⟨fun x nn h => ?_, next_of_runs (by decide +kernel)⟩
  have e : decodeWord top.fetchWord = some (.ldI 0xA 0x7B) := by decide +kernel
  rw [e] at h
  simp at h

/-- For the first clause of `NextFetchSeesStoredBytes`: the longest block, stored up to the last byte of memory, its last two
bytes fetched next; and a block of one byte, fetched as the low byte. -/
theorem witness_store_then_fetch :
    (∃ s t : State, s.mem.wf = true ∧ s.I.toNat + (15 : Reg).val ≤ 0xFFF ∧ exec (.stm 15) s = .next t ∧
      t.PC.toNat = s.I.toNat + (14 : Reg).val ∧ t.PC.toNat + 1 = s.I.toNat + (15 : Reg).val) ∧
    ∃ s t : State, s.mem.wf = true ∧ s.I.toNat + (0 : Reg).val ≤ 0xFFF ∧ exec (.stm 0) s = .next t ∧
      t.PC.toNat + 1 = s.I.toNat + (0 : Reg).val :=
  ⟨⟨{ State.reset with I := 0xFF0, PC := 0xFFC }, _, by decide, by decide, rfl, by decide +kernel, by decide +kernel⟩,
   ⟨{ State.reset with I := 0x203 }, _, by decide, by decide, rfl, by decide +kernel⟩⟩

/-- For the second clause of `NextFetchSeesStoredBytes`: the hundreds fetched as the high byte, and as the low byte. -/
theorem witness_digits_then_fetch :
    (∃ s t : State, s.mem.wf = true ∧ s.I.toNat + 2 ≤ 0xFFF ∧ exec (.bcd 1) s = .next t ∧ t.PC.toNat = s.I.toNat + 0) ∧
    ∃ s t : State, s.mem.wf = true ∧ s.I.toNat + 2 ≤ 0xFFF ∧ exec (.bcd 1) s = .next t ∧ t.PC.toNat + 1 = s.I.toNat + 0 :=
  ⟨⟨{ State.reset with I := 0xFFD, PC := 0xFFB }, _, by decide, by decide, rfl, by decide +kernel⟩,
   ⟨{ State.reset with I := 0xFFD, PC := 0xFFA }, _, by decide, by decide, rfl, by decide +kernel⟩⟩

/-- For `MemoryWriteStoresThatByteOnly`, at the last address. -/
theorem witness_memory_write : Memory.wf [(0x200, 1)] = true ∧ 0xFFF ≤ 0xFFF := by decide +kernel

/-- For the clauses of `ReturnGoesTwoPastTheCall`: one entry, a full stack, an empty one. -/
theorem witness_return :
    0 < ({ State.reset with SP := 1 } : State).SP.val ∧ 0 < ({ State.reset with SP := 16 } : State).SP.val ∧
    State.reset.SP = 0 := by decide

/-- For the clauses of `CallPushesItsOwnAddress`: an empty stack, one free slot, none. -/
theorem witness_call :
    State.reset.SP.val < 16 ∧ ({ State.reset with SP := 15 } : State).SP.val < 16 ∧
    ({ State.reset with SP := 16 } : State).SP.val = 16 := by decide

/-- For `CallThenReturnComesBack`. -/
theorem witness_call_then_return :
    State.reset.SP.val < 16 ∧ ∃ t v : State, exec (.call 0x300) State.reset = .next t ∧
      (∀ k : Fin 16, k.val < t.SP.val → t.S[k.val] = t.S[k.val]) ∧ exec .ret t = .next v :=
  ⟨by decide, _, _, rfl, fun _ _ => rfl, rfl⟩

/-- For the flag writers, whose clauses part at X = F. -/
theorem witness_x_not_f : (0 : Reg) ≠ 15 ∧ (14 : Reg) ≠ 15 := by decide

/-- For `BcdStoresThreeDigits`: the last `I` that stores and the first that faults. -/
theorem witness_bcd :
    Memory.wf [] = true ∧ (0xFFD : Word).toNat + 2 ≤ 0xFFF ∧ 0xFFF < (0xFFE : Word).toNat + 2 := by decide

/-- For `StoreBlockWritesRegistersAndMovesI`, `LoadBlockReadsRegistersAndMovesI`: the last `I` and the first that faults, for
the longest block and the shortest. -/
theorem witness_block :
    Memory.wf [] = true ∧ (0xFF0 : Word).toNat + (15 : Reg).val ≤ 0xFFF ∧ 0xFFF < (0xFF1 : Word).toNat + (15 : Reg).val ∧
    (0xFFF : Word).toNat + (0 : Reg).val ≤ 0xFFF ∧ 0xFFF < (0x1000 : Word).toNat + (0 : Reg).val := by decide

/-- For the drawing statements: no row at any `I`, fifteen rows at the last `I` that draws and at the first that faults, one
row likewise. -/
theorem witness_draw :
    (0 ≤ 15 ∧ (0 = 0 ∨ (0xFFFF : Word).toNat + 0 - 1 ≤ 0xFFF)) ∧ (15 ≤ 15 ∧ (0xFF1 : Word).toNat + 15 - 1 ≤ 0xFFF) ∧
    (0 < 15 ∧ 0xFFF < (0xFF2 : Word).toNat + 15 - 1) ∧ (0xFFF : Word).toNat + 1 - 1 ≤ 0xFFF ∧
    (0 < 1 ∧ 0xFFF < (0x1000 : Word).toNat + 1 - 1) := by decide

/-- For `DrawingTwiceRestoresTheDisplay`, on the blank display. -/
theorem witness_draw_twice :
    ∃ s t v : State, s.I.toNat + 5 - 1 ≤ 0xFFF ∧ (∀ k : Fin 2048, s.FB[k.val] = false) ∧ exec (.drw 1 2 5) s = .next t ∧
      exec (.drw 1 2 5) { t with V := s.V } = .next v :=
  ⟨State.reset, _, _, by decide, fun k => by simp [State.reset], rfl, rfl⟩

/-- For the clauses of `KeySkipsTestTheKey`: the last key and the first value that names none. -/
theorem witness_key_index :
    ((with1 1 15 State.reset).reg 1).toNat = (15 : Fin 16).val ∧ 15 < ((with1 1 16 State.reset).reg 1).toNat := by
  decide +kernel

/-- For the first clause of `KeyWaitTakesTheLowestKey`: the highest key alone. -/
theorem witness_lowest_key :
    ∃ s : State, s.K[(15 : Fin 16).val] = true ∧ ∀ j : Fin 16, j < 15 → s.K[j.val] = false :=
  ⟨{ State.reset with K := State.reset.K.set 15 true }, by decide +kernel, by decide +kernel⟩

/-- For the second clause of `KeyWaitTakesTheLowestKey`. -/
theorem witness_no_key :
    (∀ k : Fin 16, (boot 0xF10A).K[k.val] = false) ∧ (boot 0xF10A).running ∧ (boot 0xF10A).PC.toNat ≤ 0xFFE ∧
    decodeWord (boot 0xF10A).fetchWord = some (.ldKey 1) := by decide +kernel

/-- For the step clauses of `TimerRegistersReadAndWrite`. -/
theorem witness_timer_words :
    (boot 0xF107).running ∧ (boot 0xF107).PC.toNat ≤ 0xFFE ∧ decodeWord (boot 0xF107).fetchWord = some (.ldGetdt 1) ∧
    decodeWord (boot 0xF115).fetchWord = some (.ldSetdt 1) ∧ decodeWord (boot 0xF118).fetchWord = some (.ldSetst 1) := by
  decide +kernel

/-- For `InstructionsChangeOnlyWhatTheirRuleNames`: a store, whose frame is the narrowest. -/
theorem witness_exec_next : ∃ t, exec (.stm 15) State.reset = .next t := ⟨_, rfl⟩

/-- For `StepKeepsWhatOnlyTheHostChanges`, `StackMovesByOneEntry`: a step that pushes above an entry in use. -/
theorem witness_step_next :
    ∃ t, step { boot 0x2ABC with SP := 15 } = .next t ∧ (t.SP.val == 16) = true := next_of_runs (by decide +kernel)

/-- A state that is not the reset state, at the ends of the invariant's ranges. -/
def edge : State :=
  { State.reset with PC := 0x10FE, SP := 1, S := State.reset.S.set 0 0xFFE, mem := [(0x200, 1), (0xFFF, 2)] }

/-- For `StepKeepsTheInvariant`. -/
theorem witness_invariant : edge.Inv ∧ ∃ t, step edge = .next t :=
  ⟨⟨by decide +kernel, by decide +kernel, by unfold State.liveSlotsFetched; decide +kernel⟩, _, rfl⟩

/-- For `EventsKeepTheInvariant`: a step, a drain and a load. -/
theorem witness_events :
    edge.Inv ∧ ∃ t, edge.afterAll [.step 0xA7, .takeFrame, .resetAndLoad [0x22, 0x00]] = some t :=
  ⟨witness_invariant.1, _, rfl⟩

/-- For `SoundTimerHasNoEffectInTheCore`: two different states. -/
theorem witness_same_but_sound :
    State.sameButSound State.reset { State.reset with ST := 9, dirty := false } ∧ (9 : Byte) ≠ State.reset.ST :=
  ⟨rfl, by decide⟩

/-- For `DeadStackSlotsAreUnobservable`: two different states. -/
theorem witness_same_but_dead_slots :
    State.sameButDeadSlots edge { edge with S := edge.S.set 1 0x777 } ∧ edge.S ≠ edge.S.set 1 0x777 :=
  ⟨⟨rfl, by decide +kernel⟩, by decide +kernel⟩

end Sys2Proof.Tests
end

section
/-!
PROOFS. What an instruction changes (R5), as one predicate on the state it leaves and one rule for each operation on the state;
an instruction's frame is then its meaning read operation by operation.
-/

namespace Sys2Proof.Machine

/-- From `s` to `u` nothing has changed but what the rule of the instruction `i` names (R5). The start `s` of the instruction
stays fixed while `u` goes through its operations, so the bytes stored are those from `s.I` on. -/
structure ChangesOnlyNamed (i : Instr) (s u : State) : Prop where
  reg : ∀ r : Reg, mayWriteReg i r = false → u.reg r = s.reg r
  index : writesIndex i = false → u.I = s.I
  stack : touchesStack i = false → u.S = s.S ∧ u.SP = s.SP
  display : touchesDisplay i = false → u.FB = s.FB ∧ u.dirty = s.dirty
  delayTimer : (∀ x, i ≠ .ldSetdt x) → u.DT = s.DT
  soundTimer : (∀ x, i ≠ .ldSetst x) → u.ST = s.ST
  memory : ∀ a, a < s.I.toNat ∨ s.I.toNat + storedBytes i ≤ a → u.mem.read a = s.mem.read a
  keys : u.K = s.K
  loaded : u.loaded = s.loaded
  latch : mayFault i = false → u.fault = s.fault

namespace ChangesOnlyNamed

variable {i : Instr} {s u : State}

/-- Before its first operation an instruction has changed nothing. -/
theorem start : ChangesOnlyNamed i s s where
  reg _ _ := rfl
  index _ := rfl
  stack _ := ⟨rfl, rfl⟩
  display _ := ⟨rfl, rfl⟩
  delayTimer _ := rfl
  soundTimer _ := rfl
  memory _ _ := rfl
  keys := rfl
  loaded := rfl
  latch _ := rfl

/-! No clause speaks of the program counter, which any instruction may move (R73), or of the model's own count of draws (log 4). -/

theorem advance (h : ChangesOnlyNamed i s u) : ChangesOnlyNamed i s u.advance := { h with }

theorem skipIf (h : ChangesOnlyNamed i s u) (c : Bool) : ChangesOnlyNamed i s (u.skipIf c) := { h with }

theorem jumpTo (h : ChangesOnlyNamed i s u) (a : Word) : ChangesOnlyNamed i s (u.jumpTo a) := { h with }

theorem countDraw (h : ChangesOnlyNamed i s u) : ChangesOnlyNamed i s u.countDraw := { h with }

/-! Every other operation needs its element named. -/

theorem setReg (h : ChangesOnlyNamed i s u) {x : Reg} (b : Byte) (hx : mayWriteReg i x = true) :
    ChangesOnlyNamed i s (u.setReg x b) :=
  { h with
    reg := fun r hr => by
      have hne : r ≠ x := by rintro rfl; simp [hx] at hr
      rw [State.reg_setReg, if_neg hne, h.reg r hr] }

/-- Loading a block of registers from V0 on names each register it reaches. -/
theorem setRegsFrom (h : ChangesOnlyNamed i s u) {bs : List Byte}
    (hbs : ∀ r : Reg, r.val < bs.length → mayWriteReg i r = true) :
    ChangesOnlyNamed i s { u with V := Machine.setRegsFrom u.V 0 bs } :=
  { h with
    reg := fun r hr => by
      have hge : ¬ r.val < bs.length := fun hlt => by simp [hbs r hlt] at hr
      rw [← h.reg r hr, State.reg, getElem_setRegsFrom, dif_neg (by omega), State.reg] }

theorem setIndex (h : ChangesOnlyNamed i s u) (a : Word) (hi : writesIndex i = true) :
    ChangesOnlyNamed i s (u.setIndex a) :=
  { h with index := fun hn => by simp [hi] at hn }

theorem push (h : ChangesOnlyNamed i s u) (a : Word) (hp : u.SP.val < 16) (hi : touchesStack i = true) :
    ChangesOnlyNamed i s (u.push a hp) :=
  { h with stack := fun hn => by simp [hi] at hn }

theorem pop (h : ChangesOnlyNamed i s u) (hp : 0 < u.SP.val) (hi : touchesStack i = true) :
    ChangesOnlyNamed i s (u.pop hp).2 :=
  { h with stack := fun hn => by simp [hi] at hn }

theorem setDisplay (h : ChangesOnlyNamed i s u) (d : Display) (hi : touchesDisplay i = true) :
    ChangesOnlyNamed i s { u with FB := d, dirty := true } :=
  { h with display := fun hn => by simp [hi] at hn }

theorem setDelayTimer (h : ChangesOnlyNamed i s u) {x : Reg} (b : Byte) (hi : i = .ldSetdt x) :
    ChangesOnlyNamed i s { u with DT := b } :=
  { h with delayTimer := fun hn => absurd hi (hn x) }

theorem setSoundTimer (h : ChangesOnlyNamed i s u) {x : Reg} (b : Byte) (hi : i = .ldSetst x) :
    ChangesOnlyNamed i s { u with ST := b } :=
  { h with soundTimer := fun hn => absurd hi (hn x) }

/-- Storing no more bytes than the rule names, from the start's `I` on, leaves every byte outside them (R35). -/
theorem store (h : ChangesOnlyNamed i s u) {bs : List Byte} (hbs : bs.length ≤ storedBytes i) :
    ChangesOnlyNamed i s { u with mem := u.mem.writeBytes s.I.toNat bs } :=
  { h with
    memory := fun a ha => (Memory.read_writeBytes_outside u.mem bs (by omega)).trans (h.memory a ha) }

theorem raise (h : ChangesOnlyNamed i s u) (f : Fault) (hi : mayFault i = true) : ChangesOnlyNamed i s (u.raise f) :=
  { h with latch := fun hn => by simp [hi] at hn }

/-- A ranged access takes its effect or raises a fault, so both have to be named (R37). -/
theorem accessing (h : ChangesOnlyNamed i s u) (n : Nat) (hi : mayFault i = true) :
    ChangesOnlyNamed i s (s.accessing n u) := by
  obtain ⟨-, he⟩ | ⟨-, he⟩ := s.accessing_cases n u
  · rwa [he]
  · rw [he]
    exact start.raise _ hi

end ChangesOnlyNamed

open ChangesOnlyNamed in
/-- Every instruction answers a next state that differs from the old one only in what its rule names: each meaning, read
operation by operation. -/
theorem exec_changesOnlyNamed (i : Instr) (s : State) : ∃ t, exec i s = .next t ∧ ChangesOnlyNamed i s t := by
  cases i with
  | cls => exact ⟨_, rfl, (start.setDisplay _ rfl).advance⟩
  | ret =>
    refine ⟨_, rfl, ?_⟩
    split
    · next hp => exact (start.pop hp rfl).jumpTo _
    · exact start.raise _ rfl
  | call _ =>
    refine ⟨_, rfl, ?_⟩
    split
    · next hp => exact (start.push _ hp rfl).jumpTo _
    · exact start.raise _ rfl
  | jp _ | jpV0 _ => exact ⟨_, rfl, start.jumpTo _⟩
  | seI _ _ | sneI _ _ | seR _ _ | sneR _ _ => exact ⟨_, rfl, start.skipIf _⟩
  | skp _ | sknp _ =>
    refine ⟨_, rfl, ?_⟩
    split
    · exact start.skipIf _
    · exact start.raise _ rfl
  | ldI _ _ | addI _ _ | ldR _ _ | orR _ _ | andR _ _ | xorR _ _ | ldGetdt _ =>
    exact ⟨_, rfl, (start.setReg _ (by simp [mayWriteReg])).advance⟩
  | rnd _ _ => exact ⟨_, rfl, (start.countDraw.setReg _ (by simp [mayWriteReg])).advance⟩
  | ldKey _ =>
    refine ⟨_, rfl, ?_⟩
    split
    · exact (start.setReg _ (by simp [mayWriteReg])).advance
    · exact start
  | addR _ _ | sub _ _ | shr _ _ | subn _ _ | shl _ _ =>
    exact ⟨_, rfl, ((start.setReg _ (by simp [mayWriteReg])).setReg _ (by simp [mayWriteReg])).advance⟩
  | ldIdx _ | addIdx _ | ldGlyph _ => exact ⟨_, rfl, (start.setIndex _ rfl).advance⟩
  | drw _ _ n => exact ⟨_, rfl, ((start.setDisplay _ rfl).setReg _ rfl).advance.accessing n rfl⟩
  | ldSetdt _ => exact ⟨_, rfl, (start.setDelayTimer _ rfl).advance⟩
  | ldSetst _ => exact ⟨_, rfl, (start.setSoundTimer _ rfl).advance⟩
  | bcd _ => exact ⟨_, rfl, (start.store le_rfl).advance.accessing 3 rfl⟩
  | stm x => exact ⟨_, rfl, ((start.store (s.length_regBlock x).le).setIndex _ rfl).advance.accessing _ rfl⟩
  | ldm x =>
    have hload : ∀ r : Reg, r.val < (s.mem.readBytes s.I.toNat (blockLength x)).length →
        mayWriteReg (.ldm x) r = true := fun r hr => by
      rw [Memory.length_readBytes, blockLength] at hr
      exact decide_eq_true (Fin.le_def.2 (by omega))
    exact ⟨_, rfl, ((start.setRegsFrom hload).setIndex _ rfl).advance.accessing _ rfl⟩

/-- Settles O48: `exec` answers one state, the one of `exec_changesOnlyNamed`, and the clauses are the fields of
`ChangesOnlyNamed`. -/
theorem instructionsChangeOnlyWhatTheirRuleNames : Obligations.InstructionsChangeOnlyWhatTheirRuleNames := by
  intro i s t ht
  obtain ⟨u, hu, h⟩ := exec_changesOnlyNamed i s
  obtain rfl : u = t := by rw [hu] at ht; injection ht
  exact ⟨h.reg, h.index, h.stack, h.display, h.delayTimer, h.soundTimer, h.memory, h.keys, h.loaded, h.latch⟩

end Sys2Proof.Machine
end

section
/-!
PROOFS. What holds of the next state of a step: of the state left alone, of a fault raised, and of what the instruction run leaves
after its post-step.
-/

namespace Sys2Proof.Machine

/-- What is known of the one state an instruction answers holds of any state it is found to answer. -/
theorem of_eq_next {r : Result} {P : State → Prop} {u : State} (h : ∃ t, r = .next t ∧ P t) (hu : r = .next u) :
    P u := by
  obtain ⟨t, ht, hP⟩ := h
  rw [hu] at ht
  injection ht with e
  rwa [e]

/-- The next state of a step has a property that the old state has, with a fault raised or not, and that the answer of every
instruction has after its post-step. -/
theorem stepBy_next_induction {run : Instr → State → Result} {p : Config.InvalidOpcodePolicy} {s t : State}
    {Q : State → Prop} (hnext : ∀ i, ∃ u, run i s = .next u) (h : stepBy run p s = .next t) (hs : Q s) (hraise : ∀ f, Q (s.raise f))
    (hrun : s.PC.toNat ≤ 0xFFE → ∀ i u, run i s = .next u → Q u.postStep) : Q t := by
  obtain ⟨-, ⟨-, rfl⟩ | ⟨-, -, rfl⟩ | ⟨hp, i, u, -, hu, rfl⟩⟩ := stepBy_next_cases hnext h
  · exact hraise _
  · obtain he | he := s.takeInvalidOpcode_cases p s.fetchWord
    · rwa [he]
    · rw [he]
      exact hraise _
  · exact hrun hp i u hu

theorem step_next_induction {s t : State} {Q : State → Prop} (h : step s = .next t) (hs : Q s) (hraise : ∀ f, Q (s.raise f))
    (hexec : s.PC.toNat ≤ 0xFFE → ∀ i u, exec i s = .next u → Q u.postStep) : Q t :=
  stepBy_next_induction (fun i => (exec_next_cases i s).imp fun _ h => h.1) h hs hraise hexec

end Sys2Proof.Machine
end

section
/-!
PROOFS. The invariant (R15, R38, R83), operation by operation: an instruction that was fetched starts at a `PC` of at most
0xFFE, its operations keep the invariant there, and its one move of `PC` ends at most at 0x10FE.
-/

namespace Sys2Proof.Machine

namespace State.Inv

variable {s : State}

/-! An operation that touches neither memory, `PC` nor the stack keeps the invariant, clause by clause. -/

theorem setReg (h : s.Inv) (x : Reg) (b : Byte) : (s.setReg x b).Inv := { h with }

theorem setIndex (h : s.Inv) (a : Word) : (s.setIndex a).Inv := { h with }

theorem countDraw (h : s.Inv) : s.countDraw.Inv := { h with }

theorem setRegs (h : s.Inv) (v : Vector Byte 16) : State.Inv { s with V := v } := { h with }

theorem setDisplay (h : s.Inv) (d : Display) : State.Inv { s with FB := d, dirty := true } := { h with }

theorem setDelayTimer (h : s.Inv) (b : Byte) : State.Inv { s with DT := b } := { h with }

theorem setSoundTimer (h : s.Inv) (b : Byte) : State.Inv { s with ST := b } := { h with }

theorem raise (h : s.Inv) (f : Fault) : (s.raise f).Inv := { h with }

theorem postStep (h : s.Inv) : s.postStep.Inv := by
  rw [s.postStep_eq]
  exact { h with }

/-! The moves of `PC`. -/

theorem jumpTo (h : s.Inv) {a : Word} (ha : a.toNat ≤ 0x10FE) : (s.jumpTo a).Inv := { h with pcBound := ha }

/-- From an address that can be fetched, two or four further is still below the bound. -/
theorem advance (h : s.Inv) (hp : s.PC.toNat ≤ 0xFFE) : s.advance.Inv :=
  h.jumpTo (a := s.PC + 2) (by bv_omega)

theorem skipIf (h : s.Inv) (hp : s.PC.toNat ≤ 0xFFE) (c : Bool) : (s.skipIf c).Inv :=
  h.jumpTo (a := if c then s.PC + 4 else s.PC + 2) (by split <;> bv_omega)

/-! Memory and the stack. -/

/-- Bytes stored inside memory leave it canonical. -/
theorem store (h : s.Inv) {a : Nat} {bs : List Byte} (hbs : a + bs.length ≤ 4096) :
    State.Inv { s with mem := s.mem.writeBytes a bs } :=
  { h with memWf := Memory.wf_writeBytes h.memWf hbs }

/-- A call pushes the address it was fetched from. -/
theorem push (h : s.Inv) (hp : s.PC.toNat ≤ 0xFFE) (hsp : s.SP.val < 16) : (s.push s.PC hsp).Inv :=
  { h with
    slots := fun k hk => by
      have hk : k.val < s.SP.val + 1 := hk
      rw [State.push_S, Vector.getElem_set]
      split
      · exact hp
      · exact h.slots k (by omega) }

theorem pop (h : s.Inv) (hsp : 0 < s.SP.val) : (s.pop hsp).2.Inv :=
  { h with slots := fun k hk => h.slots k (Nat.lt_of_lt_of_le hk (Nat.sub_le _ _)) }

/-- The address popped was in use. -/
theorem popped_le (h : s.Inv) (hsp : 0 < s.SP.val) : (s.pop hsp).1.toNat ≤ 0xFFE :=
  h.slots ⟨s.SP.val - 1, by omega⟩ (by show s.SP.val - 1 < s.SP.val; omega)

/-- A ranged access raises its fault or takes its effect, in which the range may be relied on (R37). -/
theorem accessing (h : s.Inv) {n : Nat} {u : State} (hu : s.inRange n = true → u.Inv) : (s.accessing n u).Inv := by
  obtain ⟨hr, he⟩ | ⟨-, he⟩ := s.accessing_cases n u
  · rw [he]
    exact hu hr
  · rw [he]
    exact h.raise _

end State.Inv

/-- A jump's immediate is below 4096 (R53). -/
theorem toNat_immAddress (nnn : BitVec 12) : (immAddress nnn).toNat = nnn.toNat := by
  rw [immAddress, BitVec.zeroExtend_eq_setWidth, BitVec.toNat_setWidth]
  omega

/-- The target of `BNNN` is the exact sum, which never reaches the modulus (R83). -/
theorem toNat_immAddress_add_byteAsWord (nnn : BitVec 12) (b : Byte) :
    (immAddress nnn + byteAsWord b).toNat = nnn.toNat + b.toNat := by
  rw [BitVec.toNat_add, toNat_immAddress, byteAsWord, BitVec.zeroExtend_eq_setWidth, BitVec.toNat_setWidth]
  omega

/-- Every instruction fetched keeps the invariant: its meaning, read operation by operation. -/
theorem exec_keeps_inv {s : State} (h : s.Inv) (hp : s.PC.toNat ≤ 0xFFE) (i : Instr) :
    ∃ t, exec i s = .next t ∧ t.Inv := by
  cases i with
  | cls => exact ⟨_, rfl, (h.setDisplay _).advance hp⟩
  | ret =>
    refine ⟨_, rfl, ?_⟩
    split
    · next hsp => exact (h.pop hsp).jumpTo (by have := h.popped_le hsp; bv_omega)
    · exact h.raise _
  | call nnn =>
    refine ⟨_, rfl, ?_⟩
    split
    · next hsp => exact (h.push hp hsp).jumpTo (by rw [toNat_immAddress]; omega)
    · exact h.raise _
  | jp nnn => exact ⟨_, rfl, h.jumpTo (by rw [toNat_immAddress]; omega)⟩
  | jpV0 nnn => exact ⟨_, rfl, h.jumpTo (by rw [toNat_immAddress_add_byteAsWord]; omega)⟩
  | seI _ _ | sneI _ _ | seR _ _ | sneR _ _ => exact ⟨_, rfl, h.skipIf hp _⟩
  | skp _ | sknp _ =>
    refine ⟨_, rfl, ?_⟩
    split
    · exact h.skipIf hp _
    · exact h.raise _
  | ldI _ _ | addI _ _ | ldR _ _ | orR _ _ | andR _ _ | xorR _ _ | ldGetdt _ =>
    exact ⟨_, rfl, (h.setReg _ _).advance hp⟩
  | rnd _ _ => exact ⟨_, rfl, (h.countDraw.setReg _ _).advance hp⟩
  | ldKey _ =>
    refine ⟨_, rfl, ?_⟩
    split
    · exact (h.setReg _ _).advance hp
    · exact h
  | addR _ _ | sub _ _ | shr _ _ | subn _ _ | shl _ _ =>
    exact ⟨_, rfl, ((h.setReg _ _).setReg _ _).advance hp⟩
  | ldIdx _ | addIdx _ | ldGlyph _ => exact ⟨_, rfl, (h.setIndex _).advance hp⟩
  | drw _ _ n => exact ⟨_, rfl, h.accessing fun _ => ((h.setDisplay _).setReg _ _).advance hp⟩
  | ldSetdt _ => exact ⟨_, rfl, (h.setDelayTimer _).advance hp⟩
  | ldSetst _ => exact ⟨_, rfl, (h.setSoundTimer _).advance hp⟩
  | bcd x =>
    refine ⟨_, rfl, h.accessing fun hr => (h.store ?_).advance hp⟩
    have := (s.inRange_iff 3).1 hr
    simp only [decimalDigits, List.length_cons, List.length_nil]
    omega
  | stm x =>
    refine ⟨_, rfl, h.accessing fun hr => ((h.store ?_).setIndex _).advance hp⟩
    have := (s.inRange_iff _).1 hr
    rw [State.length_regBlock]
    simp only [blockLength] at this
    omega
  | ldm x => exact ⟨_, rfl, h.accessing fun _ => ((h.setRegs _).setIndex _).advance hp⟩

/-- Settles O52: the latch is no part of the invariant, and an instruction keeps it by `exec_keeps_inv`. -/
theorem stepKeepsTheInvariant : Obligations.StepKeepsTheInvariant := fun _ _ hs h =>
  step_next_induction h hs hs.raise fun hp i _ hu => (of_eq_next (exec_keeps_inv hs hp i) hu).postStep

/-- Settles O51: reset memory lists nothing, `PC` is the ROM base, and no slot is in use (R26). -/
theorem invariantHoldsAtReset : Obligations.InvariantHoldsAtReset where
  memWf := Memory.wf_reset
  pcBound := by decide
  slots k hk := absurd hk k.val.not_lt_zero

end Sys2Proof.Machine
end

section
/-!
PROOFS. The branches of a step and of its report, an equation each (R70, R148).
-/

namespace Sys2Proof.Machine

variable {s : State}

section stepBy

variable {run : Instr → State → Result} {p : Config.InvalidOpcodePolicy}

theorem stepBy_of_notLoaded (hl : s.loaded = false) : stepBy run p s = .refused .notLoaded := by simp [stepBy, hl]

theorem stepBy_of_latched {f : Fault} (hl : s.loaded = true) (hf : s.fault = some f) : stepBy run p s = .fault f := by
  simp [stepBy, hl, hf]

theorem stepBy_of_fetchBeyond (hr : s.running) (hp : 0xFFE < s.PC.toNat) :
    stepBy run p s = .next (s.raise (.fetchOutOfRange s.PC)) := by
  simp [stepBy, hr.1, hr.2, fetchLimit, hp]

end stepBy

theorem step_of_notLoaded (hl : s.loaded = false) : step s = .refused .notLoaded := stepBy_of_notLoaded hl

theorem step_of_latched {f : Fault} (hl : s.loaded = true) (hf : s.fault = some f) : step s = .fault f :=
  stepBy_of_latched hl hf

theorem step_of_fetchBeyond (hr : s.running) (hp : 0xFFE < s.PC.toNat) :
    step s = .next (s.raise (.fetchOutOfRange s.PC)) := stepBy_of_fetchBeyond hr hp

theorem stepReport_of_notLoaded (hl : s.loaded = false) : stepReport s = .error .notLoaded := by simp [stepReport, hl]

theorem stepReport_of_latched {f : Fault} (hl : s.loaded = true) (hf : s.fault = some f) :
    stepReport s = .ok (.fault f) := by simp [stepReport, hl, hf]

theorem stepReport_of_fetchBeyond (hr : s.running) (hp : 0xFFE < s.PC.toNat) :
    stepReport s = .ok (.fault (.fetchOutOfRange s.PC)) := by simp [stepReport, hr.1, hr.2, fetchLimit, hp]

theorem stepReport_of_invalid (hr : s.running) (hp : s.PC.toNat ≤ 0xFFE) (hd : decodeWord s.fetchWord = none) :
    stepReport s = .ok (.invalidOpcode s.fetchWord) := by
  simp [stepReport, hr.1, hr.2, fetchLimit, Nat.not_lt.2 hp, hd]

theorem stepReport_of_decoded {i : Instr} (hr : s.running) (hp : s.PC.toNat ≤ 0xFFE)
    (hd : decodeWord s.fetchWord = some i) : stepReport s = reportOfResult (exec i s) := by
  simp [stepReport, hr.1, hr.2, fetchLimit, Nat.not_lt.2 hp, hd]

end Sys2Proof.Machine
end

section
/-!
PROOFS. What the core does not observe (R17, R21, R22). Two states may differ in the stack slots, the sound timer and `dirty`, as
a relation `P` on these allows; where the few operations on them respect `P`, so does every instruction and every step.
-/

namespace Sys2Proof.Machine

/-- The elements in which the two states of a noninterference statement may differ. -/
structure Hidden where
  S : Vector Word 16
  ST : Byte
  dirty : Bool

/-- The hidden elements of a state. -/
def State.hidden (s : State) : Hidden := ⟨s.S, s.ST, s.dirty⟩

/-- The state with its hidden elements replaced, and everything visible, `SP` included, as it was. -/
def State.withHidden (s : State) (h : Hidden) : State := { s with S := h.S, ST := h.ST, dirty := h.dirty }

/-- The states differ in their hidden elements at most, and there as `P` allows at their common `SP`. -/
def State.sameBut (P : Fin 17 → Hidden → Hidden → Prop) (s t : State) : Prop :=
  ∃ h, t = s.withHidden h ∧ P s.SP s.hidden h

/-- What the core does with hidden elements respects `P`: it sets and ticks the sound timer, sets `dirty`, pushes, and pops, which
also gives the same value on both sides. -/
structure OpsRespect (P : Fin 17 → Hidden → Hidden → Prop) : Prop where
  setSound {n g h} (b : Byte) : P n g h → P n { g with ST := b } { h with ST := b }
  tick {n g h} : P n g h → P n { g with ST := tickTimer g.ST } { h with ST := tickTimer h.ST }
  setDirty {n g h} : P n g h → P n { g with dirty := true } { h with dirty := true }
  push {n g h} (a : Word) (hn : n.val < 16) : P n g h →
    P ⟨n.val + 1, Nat.add_lt_add_right hn 1⟩ { g with S := g.S.set n.val a } { h with S := h.S.set n.val a }
  top {n : Fin 17} {g h} (hn : 0 < n.val) : P n g h → g.S[n.val - 1] = h.S[n.val - 1]
  pop {n : Fin 17} {g h} : P n g h → P ⟨n.val - 1, Nat.lt_of_le_of_lt (Nat.sub_le _ _) n.isLt⟩ g h

namespace State.sameBut

variable {P : Fin 17 → Hidden → Hidden → Prop} {s t u v : State}

/-- The latch is visible. -/
theorem fault_eq (h : s.sameBut P t) : t.fault = s.fault := by
  obtain ⟨g, rfl, -⟩ := h
  rfl

theorem raise (h : s.sameBut P t) (f : Fault) : (s.raise f).sameBut P (t.raise f) := by
  obtain ⟨g, rfl, hP⟩ := h
  exact ⟨g, rfl, hP⟩

theorem takeInvalidOpcode (h : s.sameBut P t) (p : Config.InvalidOpcodePolicy) (op : Word) :
    (s.takeInvalidOpcode p op).sameBut P (t.takeInvalidOpcode p op) := by
  cases p with
  | stall => exact h
  | fault => exact h.raise _

/-- The range test looks at `I` alone (R37). -/
theorem accessing (h : s.sameBut P t) (n : Nat) (huv : u.sameBut P v) :
    (s.accessing n u).sameBut P (t.accessing n v) := by
  obtain ⟨g, rfl, hP⟩ := h
  have hr' : (s.withHidden g).inRange n = s.inRange n := rfl
  cases hr : s.inRange n with
  | true => rwa [State.accessing_of_inRange hr, State.accessing_of_inRange (hr'.trans hr)]
  | false =>
    rw [State.accessing_of_outOfRange hr, State.accessing_of_outOfRange (hr'.trans hr)]
    exact raise ⟨g, rfl, hP⟩ _

/-- A test both states answer alike leads both to the effect or both to the fault (R150). -/
theorem orRaise {c : Prop} [Decidable c] {u v : c → State} (h : s.sameBut P t) (f : Fault)
    (huv : ∀ hc, (u hc).sameBut P (v hc)) :
    (if hc : c then u hc else s.raise f).sameBut P (if hc : c then v hc else t.raise f) := by
  split
  · next hc => exact huv hc
  · exact h.raise f

/-- Both states tick or neither does (R74). -/
theorem postStep (c : OpsRespect P) (h : s.sameBut P t) : s.postStep.sameBut P t.postStep := by
  obtain ⟨g, rfl, hP⟩ := h
  have hf' : (s.withHidden g).fault = s.fault := rfl
  cases hf : s.fault with
  | none =>
    rw [State.postStep_of_none hf, State.postStep_of_none (hf'.trans hf)]
    exact ⟨_, rfl, c.tick hP⟩
  | some f =>
    rw [State.postStep_of_some hf, State.postStep_of_some (hf'.trans hf)]
    exact ⟨g, rfl, hP⟩

end State.sameBut

/-- Every instruction keeps the difference between two states within `P`. Its operands are visible but for the return address
popped, so an instruction that writes no hidden element writes the same on both sides. -/
theorem exec_sameBut {P : Fin 17 → Hidden → Hidden → Prop} (c : OpsRespect P) {s t : State} (h : s.sameBut P t)
    (i : Instr) : ∃ u v, exec i s = .next u ∧ exec i t = .next v ∧ u.sameBut P v := by
  obtain ⟨g, rfl, hP⟩ := id h
  cases i with
  | cls => exact ⟨_, _, rfl, rfl, _, rfl, c.setDirty hP⟩
  | drw x y n => exact ⟨_, _, rfl, rfl, h.accessing n ⟨_, rfl, c.setDirty hP⟩⟩
  | ldSetst x => exact ⟨_, _, rfl, rfl, _, rfl, c.setSound (s.reg x) hP⟩
  | ret =>
    refine ⟨_, _, rfl, rfl, h.orRaise _ fun hsp => ?_⟩
    have htop : ((s.withHidden g).pop hsp).1 = (s.pop hsp).1 := (c.top hsp hP).symm
    rw [htop]
    exact ⟨g, rfl, c.pop hP⟩
  | call nnn => exact ⟨_, _, rfl, rfl, h.orRaise _ fun hsp => ⟨_, rfl, c.push s.PC hsp hP⟩⟩
  | skp x | sknp x => exact ⟨_, _, rfl, rfl, h.orRaise _ fun _ => ⟨g, rfl, hP⟩⟩
  | ldKey x =>
    refine ⟨_, _, rfl, rfl, ?_⟩
    have hK : lowestPressed (s.withHidden g).K = lowestPressed s.K := rfl
    rw [hK]
    cases lowestPressed s.K with
    | none => exact h
    | some k => exact ⟨g, rfl, hP⟩
  | bcd _ | stm _ | ldm _ => exact ⟨_, _, rfl, rfl, h.accessing _ ⟨g, rfl, hP⟩⟩
  | _ => exact ⟨_, _, rfl, rfl, g, rfl, hP⟩

/-- The step of a running machine keeps the difference within `P` too, and reports the same: the branch it takes, and the fault
it reports, are visible. -/
theorem step_sameBut_of_running {P : Fin 17 → Hidden → Hidden → Prop} (c : OpsRespect P) {s t : State} (h : s.sameBut P t)
    (hr : s.running) : outcomesAgree (State.sameBut P) (step s) (step t) ∧ stepReport s = stepReport t := by
  obtain ⟨g, rfl, -⟩ := id h
  obtain hp | hp := Nat.lt_or_ge 0xFFE s.PC.toNat
  · rw [step_of_fetchBeyond hr hp, step_of_fetchBeyond (s := s.withHidden g) hr hp, stepReport_of_fetchBeyond hr hp,
      stepReport_of_fetchBeyond (s := s.withHidden g) hr hp]
    exact ⟨h.raise _, rfl⟩
  cases hd : decodeWord s.fetchWord with
  | none =>
    rw [step_of_invalid hr hp hd, step_of_invalid (s := s.withHidden g) hr hp hd, stepReport_of_invalid hr hp hd,
      stepReport_of_invalid (s := s.withHidden g) hr hp hd]
    exact ⟨h.takeInvalidOpcode _ _, rfl⟩
  | some i =>
    obtain ⟨u, v, hu, hv, huv⟩ := exec_sameBut c h i
    rw [step_of_decoded hr hp hd, step_of_decoded (s := s.withHidden g) hr hp hd, stepReport_of_decoded hr hp hd,
      stepReport_of_decoded (s := s.withHidden g) hr hp hd, hu, hv]
    refine ⟨huv.postStep c, ?_⟩
    simp only [reportOfResult, huv.fault_eq]

/-- So does any step: whether a program is loaded and what is latched are visible. -/
theorem step_sameBut {P : Fin 17 → Hidden → Hidden → Prop} (c : OpsRespect P) {s t : State} (h : s.sameBut P t) :
    outcomesAgree (State.sameBut P) (step s) (step t) ∧ stepReport s = stepReport t := by
  cases hl : s.loaded with
  | false =>
    obtain ⟨g, rfl, -⟩ := h
    rw [step_of_notLoaded hl, step_of_notLoaded (s := s.withHidden g) hl, stepReport_of_notLoaded hl,
      stepReport_of_notLoaded (s := s.withHidden g) hl]
    exact ⟨rfl, rfl⟩
  | true =>
    cases hf : s.fault with
    | some f =>
      obtain ⟨g, rfl, -⟩ := h
      rw [step_of_latched hl hf, step_of_latched (s := s.withHidden g) hl hf, stepReport_of_latched hl hf,
        stepReport_of_latched (s := s.withHidden g) hl hf]
      exact ⟨rfl, rfl⟩
    | none => exact step_sameBut_of_running c h ⟨hl, hf⟩

/-! ## The sound timer and `dirty` (R21, R22) -/

/-- The stack slots agree. -/
def sameSlots (_ : Fin 17) (g h : Hidden) : Prop := h.S = g.S

theorem sameButSound_eq : State.sameButSound = State.sameBut sameSlots := by
  funext s t
  refine propext ⟨fun h => ⟨t.hidden, ?_⟩, ?_⟩
  · obtain ⟨⟩ := s
    obtain ⟨⟩ := t
    simp_all [State.sameButSound, State.withHidden, State.hidden, sameSlots]
  · rintro ⟨g, rfl, hS⟩
    rw [State.sameButSound, State.withHidden, hS]
    rfl

theorem sameSlots_respected : OpsRespect sameSlots where
  setSound _ h := h
  tick h := h
  setDirty h := h
  push a _ h := congrArg (Vector.set · _ a) h
  top _ h := by rw [h]
  pop h := h

/-- Settles O54: the core sets and ticks the sound timer and sets `dirty`, the stack slots staying equal. -/
theorem soundTimerHasNoEffectInTheCore : Obligations.SoundTimerHasNoEffectInTheCore := by
  intro s t h
  rw [sameButSound_eq] at h ⊢
  exact step_sameBut sameSlots_respected h

/-! ## Stack slots at or above `SP` (R17) -/

/-- The sound timer, `dirty` and the slots in use agree. -/
def sameLiveSlots (n : Fin 17) (g h : Hidden) : Prop :=
  h.ST = g.ST ∧ h.dirty = g.dirty ∧ ∀ k : Fin 16, k.val < n.val → g.S[k.val] = h.S[k.val]

theorem sameButDeadSlots_eq : State.sameButDeadSlots = State.sameBut sameLiveSlots := by
  funext s t
  refine propext ⟨?_, ?_⟩
  · rintro ⟨h, hlive⟩
    refine ⟨t.hidden, ?_⟩
    obtain ⟨⟩ := s
    obtain ⟨⟩ := t
    simp_all [State.withHidden, State.hidden, sameLiveSlots]
  · rintro ⟨g, rfl, hST, hdirty, hlive⟩
    rw [State.sameButDeadSlots, State.withHidden, hST, hdirty]
    exact ⟨rfl, hlive⟩

theorem sameLiveSlots_respected : OpsRespect sameLiveSlots where
  setSound _ h := ⟨rfl, h.2⟩
  tick h := ⟨congrArg tickTimer h.1, h.2⟩
  setDirty h := ⟨h.1, rfl, h.2.2⟩
  push {n _ _} a hn h := ⟨h.1, h.2.1, fun k hk => by
    have hk : k.val < n.val + 1 := hk
    simp only [Vector.getElem_set]
    split
    · rfl
    · exact h.2.2 k (by omega)⟩
  top {n _ _} hn h := h.2.2 ⟨n.val - 1, by omega⟩ (Nat.sub_one_lt_of_lt hn)
  pop h := ⟨h.1, h.2.1, fun k hk => h.2.2 k (Nat.lt_of_lt_of_le hk (Nat.sub_le _ _))⟩

/-- The frame drained is the display buffer (R142). -/
theorem State.frame_takeFrame (s : State) : s.takeFrame.map Prod.fst = s.whenLoaded s.FB := by
  unfold State.takeFrame State.whenLoaded
  split <;> rfl

/-- Settles O55: a push writes the same slot on both sides and a pop reads a slot in use; the host reads no slot at all. -/
theorem deadStackSlotsAreUnobservable : Obligations.DeadStackSlotsAreUnobservable := by
  intro s t h
  rw [sameButDeadSlots_eq] at h ⊢
  obtain ⟨hstep, hreport⟩ := step_sameBut sameLiveSlots_respected h
  obtain ⟨g, rfl, hST, hdirty, -⟩ := h
  refine ⟨hstep, hreport, ?_, congrArg s.whenLoaded hdirty.symm, rfl, congrArg s.whenLoaded hST.symm⟩
  rw [State.frame_takeFrame, State.frame_takeFrame]
  rfl

end Sys2Proof.Machine
end

section
/-!
PROOFS. What every step leaves to the host (R19, R21, R24), and how far it moves the stack (R16, R17).
-/

namespace Sys2Proof.Machine

/-! ## The post-step touches the timers only -/

variable (s : State)

@[simp] theorem State.postStep_K : s.postStep.K = s.K := by rw [s.postStep_eq]
@[simp] theorem State.postStep_dirty : s.postStep.dirty = s.dirty := by rw [s.postStep_eq]
@[simp] theorem State.postStep_loaded : s.postStep.loaded = s.loaded := by rw [s.postStep_eq]
@[simp] theorem State.postStep_S : s.postStep.S = s.S := by rw [s.postStep_eq]
@[simp] theorem State.postStep_SP : s.postStep.SP = s.SP := by rw [s.postStep_eq]

/-! ## The elements of the host -/

/-- From `s` to `t` no key has changed, `dirty` has not been cleared, and nothing was loaded or unloaded. -/
structure KeepsHosts (s t : State) : Prop where
  keys : t.K = s.K
  dirty : s.dirty = true → t.dirty = true
  loaded : t.loaded = s.loaded

variable {s}

/-- An instruction clears `dirty` nowhere: the display instructions set it, or raise a fault (R120, R121). -/
theorem exec_keeps_dirty {i : Instr} {u : State} (hu : exec i s = .next u) (hd : s.dirty = true) : u.dirty = true := by
  have hframe : ChangesOnlyNamed i s u := of_eq_next (exec_changesOnlyNamed i s) hu
  cases i with
  | cls =>
    injection hu with hu
    rw [← hu]
    rfl
  | drw x y n =>
    injection hu with hu
    rw [← hu]
    obtain ⟨-, he⟩ | ⟨-, he⟩ := s.accessing_cases n _
    · rw [he]
      rfl
    · rw [he]
      exact hd
  | _ => exact (hframe.display rfl).2 ▸ hd

theorem exec_keepsHosts {i : Instr} {u : State} (hu : exec i s = .next u) : KeepsHosts s u :=
  have hframe : ChangesOnlyNamed i s u := of_eq_next (exec_changesOnlyNamed i s) hu
  ⟨hframe.keys, exec_keeps_dirty hu, hframe.loaded⟩

/-- Settles O49: a step that answers a next state started with a program loaded and no fault latched, and neither a fault, nor
an instruction, nor the post-step touches what is the host's. -/
theorem stepKeepsWhatOnlyTheHostChanges : Obligations.StepKeepsWhatOnlyTheHostChanges := by
  intro s t h
  obtain ⟨⟨hloaded, hfault⟩, -⟩ := step_next_cases h
  have hkept : KeepsHosts s t := step_next_induction h ⟨rfl, id, rfl⟩ (fun _ => ⟨rfl, id, rfl⟩) fun _ i u hu =>
    have hexec := exec_keepsHosts hu
    ⟨by simp [hexec.keys], by simpa using hexec.dirty, by simp [hexec.loaded]⟩
  exact ⟨hkept.keys, hkept.dirty, hkept.loaded.trans hloaded, hfault⟩

/-! ## The stack -/

/-- From `s` to `t` the stack pointer has moved by at most one, and the slots in use in `s` hold what they held. -/
structure StackNear (s t : State) : Prop where
  pointer : t.SP = s.SP ∨ t.SP.val = s.SP.val + 1 ∨ t.SP.val + 1 = s.SP.val
  slots : ∀ k : Fin 16, k.val < s.SP.val → t.S[k.val] = s.S[k.val]

theorem StackNear.of_eq {t : State} (hS : t.S = s.S) (hSP : t.SP = s.SP) : StackNear s t :=
  ⟨.inl hSP, fun _ _ => by rw [hS]⟩

/-- A push writes the slot at the old `SP`, above those in use (R17). -/
theorem stackNear_push (a : Word) (h : s.SP.val < 16) : StackNear s (s.push a h) :=
  ⟨.inr (.inl rfl), fun k hk => by rw [State.push_S, Vector.getElem_set_ne]; omega⟩

/-- A pop writes no slot (R17). -/
theorem stackNear_pop (h : 0 < s.SP.val) : StackNear s (s.pop h).2 :=
  ⟨.inr (.inr (Nat.sub_add_cancel h)), fun _ _ => rfl⟩

theorem exec_stackNear {i : Instr} {u : State} (hu : exec i s = .next u) : StackNear s u := by
  have hframe : ChangesOnlyNamed i s u := of_eq_next (exec_changesOnlyNamed i s) hu
  cases i with
  | ret =>
    injection hu with hu
    rw [← hu]
    split
    · next hsp => exact { stackNear_pop hsp with }
    · exact .of_eq rfl rfl
  | call nnn =>
    injection hu with hu
    rw [← hu]
    split
    · next hsp => exact { stackNear_push s.PC hsp with }
    · exact .of_eq rfl rfl
  | _ => exact .of_eq (hframe.stack rfl).1 (hframe.stack rfl).2

/-- Settles O50: a fault and the post-step leave the stack alone, and an instruction moves it by `exec_stackNear`. -/
theorem stackMovesByOneEntry : Obligations.StackMovesByOneEntry := by
  intro s t h
  have hnear : StackNear s t := step_next_induction h (.of_eq rfl rfl) (fun _ => .of_eq rfl rfl) fun _ i u hu =>
    have hexec := exec_stackNear hu
    ⟨by simpa using hexec.pointer, by simpa using hexec.slots⟩
  exact ⟨hnear.pointer, hnear.slots⟩

end Sys2Proof.Machine
end

section
/-!
PROOFS. What a load leaves (R26, R170), and that nothing but another load has a meaning after one that failed (R24, R171, R174).
-/

namespace Sys2Proof.Machine

variable {s : State}

/-- Memory after a load of `rom` (R170). -/
def memoryWithRom (rom : List Byte) : Memory := State.reset.mem.writeBytes 0x200 rom

/-- A load of a ROM that fits succeeds, and leaves the reset state but for the ROM in memory and the count of draws (R170,
log 4). -/
theorem State.resetAndLoad_of_le {rom : List Byte} (h : rom.length ≤ 3584) :
    s.resetAndLoad rom =
      (.ok (), { State.reset with mem := memoryWithRom rom, draws := s.draws }) := if_pos h

/-- A load of a longer ROM fails and leaves the machine not loaded (R171). -/
theorem State.resetAndLoad_of_lt {rom : List Byte} (h : 3584 < rom.length) :
    s.resetAndLoad rom = (.error .tooLarge, { s with loaded := false }) := if_neg (Nat.not_le.2 h)

theorem State.whenLoaded_of_notLoaded {α : Type} (hl : s.loaded = false) (a : α) :
    s.whenLoaded a = .error .notLoaded := by simp [State.whenLoaded, hl]

/-- While nothing is loaded, an event that is no load has no meaning (R24, D17). -/
theorem State.after_of_notLoaded (hl : s.loaded = false) {e : Event} (he : ∀ rom, e ≠ .resetAndLoad rom) :
    s.after e = none := by
  cases e with
  | step r => rw [State.after, State.stepWith, stepBy_of_notLoaded hl, stateAfterStep]
  | setKey _ _ | takeFrame | isDirty | delayTimer | soundTimer =>
    simp [State.after, State.setKey, State.takeFrame, State.isDirty, State.delayTimer, State.soundTimer,
      State.whenLoaded_of_notLoaded hl, Except.toOption]
  | resetAndLoad rom => exact absurd rfl (he rom)

/-! ## Memory after a load, range by range (R26, R27, R31) -/

section memory

variable {rom : List Byte}

/-- Outside the ROM a byte is as reset leaves it. -/
theorem read_memoryWithRom_outside {a : Nat} (h : a < 0x200 ∨ 0x200 + rom.length ≤ a) :
    (memoryWithRom rom).read a = Memory.unlisted a := Memory.read_writeBytes_outside _ _ h

theorem read_memoryWithRom_glyph (a : Fin 80) :
    (memoryWithRom rom).read a.val = Config.glyphs[a.val] := by
  rw [read_memoryWithRom_outside (by omega), Memory.unlisted_of_lt a.isLt]

/-- Beyond the glyph table and outside the ROM memory is 0. -/
theorem read_memoryWithRom_zero {a : Nat} (hg : 80 ≤ a) (h : a < 0x200 ∨ 0x200 + rom.length ≤ a) :
    (memoryWithRom rom).read a = 0 := by
  rw [read_memoryWithRom_outside h, Memory.unlisted_of_le hg]

theorem read_memoryWithRom_inside (hrom : rom.length ≤ 3584) {j : Nat} (hj : j < rom.length) :
    (memoryWithRom rom).read (0x200 + j) = rom[j] :=
  Memory.read_writeBytes_inside Memory.wf_reset (by omega) hj

end memory

/-! ## The elements of the reset state (R26) -/

theorem reset_reg (x : Reg) : State.reset.reg x = 0 := Vector.getElem_replicate _

theorem reset_slot (k : Fin 16) : State.reset.S[k.val] = 0 := Vector.getElem_replicate _

theorem reset_key (k : Fin 16) : State.reset.K[k.val] = false := Vector.getElem_replicate _

theorem reset_pixel (x y : Nat) : State.reset.FB.pixel x y = false := Vector.getElem_replicate _

/-- Settles O5: a load that fits leaves the reset state with the ROM in its memory, and one that does not fit leaves the machine
not loaded. -/
theorem loadGivesEveryElementItsResetValue : Obligations.LoadGivesEveryElementItsResetValue := by
  intro rom s
  refine ⟨fun hrom => ?_, fun hrom => ?_⟩
  · rw [State.resetAndLoad_of_le hrom]
    exact ⟨rfl, reset_reg, rfl, rfl, rfl, reset_slot, reset_key, reset_pixel, rfl, rfl, rfl, read_memoryWithRom_glyph,
      fun a h50 h1FF => read_memoryWithRom_zero h50 (by omega), fun j => read_memoryWithRom_inside hrom,
      fun a hend _ => read_memoryWithRom_zero (by omega) (.inr hend), rfl, rfl⟩
  · rw [State.resetAndLoad_of_lt hrom]
    exact ⟨step_of_notLoaded rfl, fun e => State.after_of_notLoaded rfl⟩

end Sys2Proof.Machine
end

section
/-!
PROOFS. One byte written to memory (R39), the stores of `FX33` and `FX55` read back byte by byte (R113, R114), and that the next
fetch sees the bytes they stored (R43, R183).
-/

namespace Sys2Proof.Machine

/-- Settles O23, by the laws of `Memory.write`. -/
theorem memoryWriteStoresThatByteOnly : Obligations.MemoryWriteStoresThatByteOnly := by
  intro m a v hm ha
  exact ⟨Memory.wf_write v hm (by omega), Memory.read_write_same v hm, fun _ hc => Memory.read_write_of_ne m v hc⟩

/-! ## The bytes of the word fetched -/

variable {s t : State}

/-- A byte at `PC` is the high byte of the word fetched, and a byte at `PC + 1` the low byte (R33). -/
theorem State.fetchWord_of_read {a n : Nat} (h : (s.mem.read a).toNat = n) :
    (s.PC.toNat = a → s.fetchWord.toNat / 256 = n) ∧ (s.PC.toNat + 1 = a → s.fetchWord.toNat % 256 = n) := by
  have hlow := (s.mem.read (s.PC.toNat + 1)).isLt
  rw [s.toNat_fetchWord]
  exact ⟨by rintro rfl; omega, by rintro rfl; omega⟩

/-! ## The stores, where the block lies in memory -/

theorem exec_stm_of_le {x : Reg} (h : s.I.toNat + x.val ≤ 0xFFF) :
    exec (.stm x) s = .next
      { s with mem := s.mem.writeBytes s.I.toNat (s.regBlock x), I := s.indexAfterBlock x }.advance :=
  congrArg _ (State.accessing_of_inRange ((s.inRange_iff _).2 (.inr h)) _)

theorem exec_bcd_of_le {x : Reg} (h : s.I.toNat + 2 ≤ 0xFFF) :
    exec (.bcd x) s = .next { s with mem := s.mem.writeBytes s.I.toNat (decimalDigits (s.reg x)) }.advance :=
  congrArg _ (State.accessing_of_inRange ((s.inRange_iff 3).2 (.inr h)) _)

/-- After `FX55` the byte at `I + k` is that of Vk, for each register of the block (R114). -/
theorem read_of_exec_stm {x k : Reg} (hm : s.mem.wf = true) (hk : k ≤ x) (h : s.I.toNat + x.val ≤ 0xFFF)
    (ht : exec (.stm x) s = .next t) : t.mem.read (s.I.toNat + k.val) = s.reg k := by
  have hlen := s.length_regBlock x
  have hk' : k.val ≤ x.val := hk
  rw [exec_stm_of_le h] at ht
  injection ht with ht
  calc t.mem.read (s.I.toNat + k.val)
      = (s.mem.writeBytes s.I.toNat (s.regBlock x)).read (s.I.toNat + k.val) := by rw [← ht]; rfl
    _ = (s.regBlock x)[k.val] := Memory.read_writeBytes_inside hm (by omega) (by omega)
    _ = s.reg k := s.getElem_regBlock x _

/-- After `FX33` the bytes at `I`, `I + 1` and `I + 2` are the hundreds, the tens and the units of VX, each below 256 and so
held whole (R102, R113). -/
theorem read_of_exec_bcd {x : Reg} (hm : s.mem.wf = true) (h : s.I.toNat + 2 ≤ 0xFFF)
    (ht : exec (.bcd x) s = .next t) :
    (t.mem.read s.I.toNat).toNat = (s.reg x).toNat / 100 ∧
      (t.mem.read (s.I.toNat + 1)).toNat = (s.reg x).toNat / 10 % 10 ∧
      (t.mem.read (s.I.toNat + 2)).toNat = (s.reg x).toNat % 10 := by
  rw [exec_bcd_of_le h] at ht
  injection ht with ht
  have hlt := (s.reg x).isLt
  have hread (k : Nat) (hk : k < 3) : t.mem.read (s.I.toNat + k) = (decimalDigits (s.reg x))[k]'hk := by
    rw [← ht]
    exact Memory.read_writeBytes_inside hm (Nat.succ_le_succ h) hk
  refine ⟨?_, ?_, ?_⟩
  · exact (congrArg BitVec.toNat (hread 0 (by decide))).trans (Nat.mod_eq_of_lt (by omega))
  · exact (congrArg BitVec.toNat (hread 1 (by decide))).trans (Nat.mod_eq_of_lt (by omega))
  · exact (congrArg BitVec.toNat (hread 2 (by decide))).trans (Nat.mod_eq_of_lt (by omega))

/-- Settles O22: a fetch reads the memory the store has left, and there each byte of the block is the one stored. -/
theorem nextFetchSeesStoredBytes : Obligations.NextFetchSeesStoredBytes := by
  intro s hm
  refine ⟨fun x k t hk hI ht => ?_, fun x k digit t hI ht hdigit => ?_⟩
  · exact State.fetchWord_of_read (congrArg BitVec.toNat (read_of_exec_stm hm hk hI ht))
  · obtain ⟨hhundreds, htens, hunits⟩ := read_of_exec_bcd hm hI ht
    obtain ⟨rfl, rfl⟩ | ⟨rfl, rfl⟩ | ⟨rfl, rfl⟩ := hdigit
    · exact State.fetchWord_of_read hhundreds
    · exact State.fetchWord_of_read htens
    · exact State.fetchWord_of_read hunits

end Sys2Proof.Machine
end

section
/-!
PROOFS. Encoding (spec/30_encoding.md section 2): the opcode of each instruction said once, as the values of its fields (`Spells`).
The multiplexer, R59's table and R55's masks are each tied to that.
-/

namespace Sys2Proof.Machine

variable {op v : Word} {i : Instr} {f n : Nat} {x y : Reg} {nn : Byte} {nnn : BitVec 12}

/-! ## The three layouts of an opcode (R51) -/

/-- The opcode is of family `f`, with the twelve bits `nnn` below it. -/
structure HasNNN (op : Word) (f : Nat) (nnn : BitVec 12) : Prop where
  family : opFamily op = f
  nnn : opNNN op = nnn

/-- The opcode is of family `f`, with the fields X and NN. -/
structure HasXNN (op : Word) (f : Nat) (x : Reg) (nn : Byte) : Prop where
  family : opFamily op = f
  x : opX op = x
  nn : opNN op = nn

/-- The opcode is of family `f`, with the fields X, Y and N. -/
structure HasXYN (op : Word) (f : Nat) (x y : Reg) (n : Nat) : Prop where
  family : opFamily op = f
  x : opX op = x
  y : opY op = y
  n : opN op = n

theorem opX_eq_iff : opX op = x ↔ op.toNat / 256 % 16 = x.val := Fin.ext_iff

theorem opY_eq_iff : opY op = y ↔ op.toNat / 16 % 16 = y.val := Fin.ext_iff

theorem opNN_eq_iff : opNN op = nn ↔ op.toNat % 256 = nn.toNat := BitVec.toNat_inj.symm

theorem opNNN_eq_iff : opNNN op = nnn ↔ op.toNat % 4096 = nnn.toNat := BitVec.toNat_inj.symm

theorem hasNNN_iff : HasNNN op f nnn ↔ op.toNat = f * 4096 + nnn.toNat := by
  constructor
  · rintro ⟨hf, hnnn⟩
    rw [opFamily] at hf
    rw [opNNN_eq_iff] at hnnn
    omega
  · exact fun h => ⟨by rw [opFamily]; omega, opNNN_eq_iff.2 (by omega)⟩

theorem hasXNN_iff : HasXNN op f x nn ↔ op.toNat = f * 4096 + x.val * 256 + nn.toNat := by
  constructor
  · rintro ⟨hf, hx, hnn⟩
    rw [opFamily] at hf
    rw [opX_eq_iff] at hx
    rw [opNN_eq_iff] at hnn
    omega
  · exact fun h => ⟨by rw [opFamily]; omega, opX_eq_iff.2 (by omega), opNN_eq_iff.2 (by omega)⟩

theorem hasXYN_iff : HasXYN op f x y n ↔ n ≤ 15 ∧ op.toNat = f * 4096 + x.val * 256 + y.val * 16 + n := by
  constructor
  · rintro ⟨hf, hx, hy, hn⟩
    rw [opFamily] at hf
    rw [opX_eq_iff] at hx
    rw [opY_eq_iff] at hy
    rw [opN] at hn
    omega
  · exact fun h =>
      ⟨by rw [opFamily]; omega, opX_eq_iff.2 (by omega), opY_eq_iff.2 (by omega), by rw [opN]; omega⟩

/-! ## The opcode of each instruction -/

/-- The opcode's fields are those R55 gives the instruction. -/
def Spells (op : Word) : Instr → Prop
  | .cls => HasNNN op 0x0 0x0E0
  | .ret => HasNNN op 0x0 0x0EE
  | .jp nnn => HasNNN op 0x1 nnn
  | .call nnn => HasNNN op 0x2 nnn
  | .seI x nn => HasXNN op 0x3 x nn
  | .sneI x nn => HasXNN op 0x4 x nn
  | .seR x y => HasXYN op 0x5 x y 0x0
  | .ldI x nn => HasXNN op 0x6 x nn
  | .addI x nn => HasXNN op 0x7 x nn
  | .ldR x y => HasXYN op 0x8 x y 0x0
  | .orR x y => HasXYN op 0x8 x y 0x1
  | .andR x y => HasXYN op 0x8 x y 0x2
  | .xorR x y => HasXYN op 0x8 x y 0x3
  | .addR x y => HasXYN op 0x8 x y 0x4
  | .sub x y => HasXYN op 0x8 x y 0x5
  | .shr x y => HasXYN op 0x8 x y 0x6
  | .subn x y => HasXYN op 0x8 x y 0x7
  | .shl x y => HasXYN op 0x8 x y 0xE
  | .sneR x y => HasXYN op 0x9 x y 0x0
  | .ldIdx nnn => HasNNN op 0xA nnn
  | .jpV0 nnn => HasNNN op 0xB nnn
  | .rnd x nn => HasXNN op 0xC x nn
  | .drw x y n => HasXYN op 0xD x y n
  | .skp x => HasXNN op 0xE x 0x9E
  | .sknp x => HasXNN op 0xE x 0xA1
  | .ldGetdt x => HasXNN op 0xF x 0x07
  | .ldKey x => HasXNN op 0xF x 0x0A
  | .ldSetdt x => HasXNN op 0xF x 0x15
  | .ldSetst x => HasXNN op 0xF x 0x18
  | .addIdx x => HasXNN op 0xF x 0x1E
  | .ldGlyph x => HasXNN op 0xF x 0x29
  | .bcd x => HasXNN op 0xF x 0x33
  | .stm x => HasXNN op 0xF x 0x55
  | .ldm x => HasXNN op 0xF x 0x65

/-- R59's table gives the number with the instruction's fields: in each row the layout's sum is the row's. -/
theorem spells_iff_toNat : Spells op i ↔ i.wellFormed = true ∧ op.toNat = encodeNat i := by
  cases i
  all_goals
    simp only [Spells, hasNNN_iff, hasXNN_iff, hasXYN_iff, Instr.wellFormed, encodeNat, decide_eq_true_eq, true_and,
      BitVec.reduceToNat] <;> omega

/-- The encoder answers the one opcode that spells a well-formed instruction. -/
theorem spells_iff_encode : Spells op i ↔ i.wellFormed = true ∧ encode i = op := by
  rw [spells_iff_toNat]
  refine and_congr_right fun hw => ?_
  rw [← (Laws.EncodingFits.of_wellFormed i hw).2, BitVec.toNat_inj, eq_comm]

/-- The multiplexer answers the instruction the fields spell. -/
theorem decodeWord_of_spells (h : Spells op i) : decodeWord op = some i := by
  cases i with
  | cls | ret | jp _ | call _ | ldIdx _ | jpV0 _ =>
    obtain ⟨hf, hnnn⟩ := h
    simp [decodeWord, hf, hnnn, decodeFamily0]
  | seR _ _ | ldR _ _ | orR _ _ | andR _ _ | xorR _ _ | addR _ _ | sub _ _ | shr _ _ | subn _ _ | shl _ _ | sneR _ _
  | drw _ _ _ =>
    obtain ⟨hf, hx, hy, hn⟩ := h
    simp [decodeWord, hf, hx, hy, hn, decodeLowZero, decodeFamily8]
  | _ =>
    obtain ⟨hf, hx, hnn⟩ := h
    simp [decodeWord, hf, hx, hnn, decodeFamilyE, decodeFamilyF]

/-- Whatever the multiplexer answers, the fields it compared spell: the family, and in the families 0, 5, 8, 9, E and F the
fixed part below it. (Branch `h_k` of `decodeWord` is the family k - 1.) -/
theorem spells_of_decodeWord (h : decodeWord op = some i) : Spells op i := by
  unfold decodeWord at h
  split at h
  case h_1 hf =>
    unfold decodeFamily0 at h
    split at h <;> cases h <;> exact ⟨hf, BitVec.eq_of_toNat_eq ‹_›⟩
  case h_2 hf | h_3 hf | h_11 hf | h_12 hf =>
    cases h
    exact ⟨hf, rfl⟩
  case h_4 hf | h_5 hf | h_7 hf | h_8 hf | h_13 hf =>
    cases h
    exact ⟨hf, rfl, rfl⟩
  case h_6 hf | h_10 hf =>
    unfold decodeLowZero at h
    split at h <;> cases h
    exact ⟨hf, rfl, rfl, ‹_›⟩
  case h_9 hf =>
    unfold decodeFamily8 at h
    split at h <;> cases h <;> exact ⟨hf, rfl, rfl, ‹_›⟩
  case h_14 hf =>
    cases h
    exact ⟨hf, rfl, rfl, rfl⟩
  case h_15 hf =>
    unfold decodeFamilyE at h
    split at h <;> cases h <;> exact ⟨hf, rfl, BitVec.eq_of_toNat_eq ‹_›⟩
  case h_16 hf =>
    unfold decodeFamilyF at h
    split at h <;> cases h <;> exact ⟨hf, rfl, BitVec.eq_of_toNat_eq ‹_›⟩
  case h_17 => cases h

/-- Settles O2: an opcode that decodes has the fields of its instruction, and so has its encoding. -/
theorem encodeSpellsEveryDecodedWord : Obligations.EncodeSpellsEveryDecodedWord := by
  intro op i h
  exact (spells_iff_encode.1 (spells_of_decodeWord h)).symm

/-! ## The two bytes of an opcode (R33, R50) -/

theorem decodeWord_encode (hw : i.wellFormed = true) : decodeWord (encode i) = some i :=
  decodeWord_of_spells (spells_iff_encode.2 ⟨hw, rfl⟩)

/-- The bytes of an opcode, high byte first, are read as that opcode. -/
theorem wordOfBytes_of_halves (w : Word) : wordOfBytes (BitVec.ofNat 8 (w.toNat / 256)) (BitVec.ofNat 8 w.toNat) = w := by
  refine BitVec.eq_of_toNat_eq ?_
  simp only [wordOfBytes, BitVec.toNat_ofNat]
  omega

theorem decode_bytesOfWord_append {rest : List Byte} (h : decodeWord op = some i) :
    decode (bytesOfWord op ++ rest) = .ok (i, rest) := by
  simp only [bytesOfWord, List.cons_append, List.nil_append, decode, wordOfBytes_of_halves, h]

/-- Settles O1: the bytes are read as the encoding, whose fields are those of the instruction. -/
theorem decodeReadsBackEveryEncoding : Obligations.DecodeReadsBackEveryEncoding := by
  intro i rest hw
  exact decode_bytesOfWord_append (decodeWord_encode hw)

/-! ## Mask and match (R55) -/

/-- A mask of the family nibble and the lowest `k` bits keeps the family and those bits. -/
theorem toNat_and_mask {k : Nat} (hk : k ≤ 12) :
    (op &&& BitVec.ofNat 16 (0xF000 + (2 ^ k - 1))).toNat = opFamily op * 4096 + op.toNat % 2 ^ k := by
  have hpow : 2 ^ k ≤ 2 ^ 12 := Nat.pow_le_pow_right (by decide) hk
  have hpos : 0 < 2 ^ k := Nat.two_pow_pos k
  have hmask : (BitVec.ofNat 16 (0xF000 + (2 ^ k - 1))).toNat = 0xF000 + (2 ^ k - 1) := by
    rw [BitVec.toNat_ofNat]
    omega
  rw [BitVec.toNat_and, hmask]
  have hhigh : (op.toNat &&& (0xF000 + (2 ^ k - 1))) / 2 ^ 12 = opFamily op := by
    rw [Nat.and_div_two_pow, show (0xF000 + (2 ^ k - 1)) / 2 ^ 12 = 2 ^ 4 - 1 by omega, Nat.and_two_pow_sub_one_eq_mod,
      opFamily]
    omega
  have hlow : (op.toNat &&& (0xF000 + (2 ^ k - 1))) % 2 ^ 12 = op.toNat % 2 ^ k := by
    rw [Nat.and_mod_two_pow, show (0xF000 + (2 ^ k - 1)) % 2 ^ 12 = 2 ^ k - 1 by omega, Nat.and_two_pow_sub_one_eq_mod,
      Nat.mod_mod_of_dvd _ (Nat.pow_dvd_pow 2 hk)]
  omega

/-- An opcode is `v` under such a mask exactly where it has the family and the low bits of `v`. -/
theorem and_mask_eq_iff {k : Nat} (hk : k ≤ 12) :
    op &&& BitVec.ofNat 16 (0xF000 + (2 ^ k - 1)) = v ↔
      opFamily op = v.toNat / 4096 ∧ op.toNat % 2 ^ k = v.toNat % 4096 := by
  have hpow : 2 ^ k ≤ 2 ^ 12 := Nat.pow_le_pow_right (by decide) hk
  have hlow := Nat.mod_lt op.toNat (Nat.two_pow_pos k)
  rw [← BitVec.toNat_inj, toNat_and_mask hk]
  omega

theorem and_F000_eq_iff : op &&& 0xF000#16 = v ↔ opFamily op = v.toNat / 4096 ∧ 0 = v.toNat % 4096 := by
  rw [← Nat.mod_one op.toNat]
  exact and_mask_eq_iff (k := 0) (by decide)

theorem and_F00F_eq_iff : op &&& 0xF00F#16 = v ↔ opFamily op = v.toNat / 4096 ∧ opN op = v.toNat % 4096 :=
  and_mask_eq_iff (k := 4) (by decide)

theorem and_F0FF_eq_iff : op &&& 0xF0FF#16 = v ↔ opFamily op = v.toNat / 4096 ∧ (opNN op).toNat = v.toNat % 4096 :=
  and_mask_eq_iff (k := 8) (by decide)

theorem and_FFFF_eq_iff : op &&& 0xFFFF#16 = v ↔ opFamily op = v.toNat / 4096 ∧ (opNNN op).toNat = v.toNat % 4096 :=
  and_mask_eq_iff (k := 12) (by decide)

theorem mapRow_lt (i : Instr) : mapRow i < opcodeMap.length := by
  cases i <;> simp [mapRow, opcodeMap]

/-- An opcode with the fields of an instruction matches the instruction's row. -/
theorem and_mapRow_of_spells (h : Spells op i) :
    op &&& (opcodeMap[mapRow i]'(mapRow_lt i)).1 = (opcodeMap[mapRow i]'(mapRow_lt i)).2 := by
  cases i with
  | cls | ret => simp [mapRow, opcodeMap, and_FFFF_eq_iff, h.family, h.nnn]
  | seR _ _ | ldR _ _ | orR _ _ | andR _ _ | xorR _ _ | addR _ _ | sub _ _ | shr _ _ | subn _ _ | shl _ _ | sneR _ _ =>
    simp [mapRow, opcodeMap, and_F00F_eq_iff, h.family, h.n]
  | skp _ | sknp _ | ldGetdt _ | ldKey _ | ldSetdt _ | ldSetst _ | addIdx _ | ldGlyph _ | bcd _ | stm _ | ldm _ =>
    simp [mapRow, opcodeMap, and_F0FF_eq_iff, h.family, h.nn]
  | _ => simp [mapRow, opcodeMap, and_F000_eq_iff, h.family]

/-- An opcode that matches a row decodes to an instruction of it: the mask fixes just the fields on which the multiplexer
branches there. -/
theorem decodes_of_matchesRow {k : Nat} (hk : k < opcodeMap.length) :
    op &&& opcodeMap[k].1 = opcodeMap[k].2 → ∃ i, decodeWord op = some i ∧ mapRow i = k := by
  have hk : k < 34 := hk
  interval_cases k
  all_goals
    simp +contextual [opcodeMap, and_F000_eq_iff, and_F00F_eq_iff, and_F0FF_eq_iff, and_FFFF_eq_iff, decodeWord,
      decodeFamily0, decodeLowZero, decodeFamily8, decodeFamilyE, decodeFamilyF, mapRow]

/-- Settles O3: an opcode decodes to an instruction of each row it matches, and matches the row of what it decodes to. -/
theorem decodeFollowsTheOpcodeMap : Obligations.DecodeFollowsTheOpcodeMap := by
  intro op
  have hrow (k : Nat) (hk : k < opcodeMap.length) :
      op &&& opcodeMap[k].1 = opcodeMap[k].2 ↔ ∃ i, decodeWord op = some i ∧ mapRow i = k := by
    refine ⟨decodes_of_matchesRow hk, ?_⟩
    rintro ⟨i, hd, rfl⟩
    exact and_mapRow_of_spells (spells_of_decodeWord hd)
  refine ⟨hrow, fun hnone row hmem hmatch => ?_, fun hno => ?_⟩
  · obtain ⟨k, hk, rfl⟩ := List.getElem_of_mem hmem
    obtain ⟨i, hd, -⟩ := (hrow k hk).1 hmatch
    rw [hnone] at hd
    cases hd
  · refine Option.eq_none_iff_forall_ne_some.2 fun i hd => ?_
    exact hno _ (List.getElem_mem (mapRow_lt i)) ((hrow _ _).2 ⟨i, hd, rfl⟩)

end Sys2Proof.Machine
end

section
/-!
PROOFS. The step cycle (R70 to R78): how a step ends, together with what it then reports, and what follows for the latch and the
timers.
-/

namespace Sys2Proof.Machine

variable {s t u : State}

/-! ## The report of an instruction (R148) -/

theorem reportOfResult_of_none (hf : u.fault = none) : reportOfResult (.next u) = .ok .ok := by simp [reportOfResult, hf]

theorem reportOfResult_of_some {f : Fault} (hf : u.fault = some f) : reportOfResult (.next u) = .ok (.fault f) := by
  simp [reportOfResult, hf]

/-- Settles O14: the word of the statement is `State.fetchWord`, and the latch the instruction leaves decides the post-step and
the report. -/
theorem stepRunsTheDecodedInstruction : Obligations.StepRunsTheDecodedInstruction := by
  intro s i t hr hp hd ht
  rw [step_of_decoded hr hp hd, stepReport_of_decoded hr hp hd, ht, finishStep]
  cases hf : t.fault with
  | none => exact ⟨by simp [State.postStep_of_none hf, State.tick, hf], reportOfResult_of_none hf⟩
  | some f => exact ⟨by simp [State.postStep_of_some hf], reportOfResult_of_some hf⟩

/-- Settles O19: each of the three branches of a running machine's step answers a next state, and no step unloads the program. -/
theorem runningMachineAlwaysHasASuccessor : Obligations.RunningMachineAlwaysHasASuccessor := by
  intro s hr
  have hnext : ∃ t, step s = .next t := by
    obtain hp | hp := Nat.lt_or_ge 0xFFE s.PC.toNat
    · exact ⟨_, step_of_fetchBeyond hr hp⟩
    cases hd : decodeWord s.fetchWord with
    | none => exact ⟨_, step_of_invalid hr hp hd⟩
    | some i =>
      obtain ⟨u, hu, -⟩ := exec_next_cases i s
      exact ⟨_, by rw [step_of_decoded hr hp hd, hu, finishStep]⟩
  obtain ⟨t, ht⟩ := hnext
  obtain ⟨-, -, hloaded, -⟩ := stepKeepsWhatOnlyTheHostChanges s t ht
  exact ⟨t, ht, hloaded⟩

/-! ## How a step ends -/

/-- The ways a step from `s` to `t` can end, each with its report: an instruction has completed and the timers have ticked, a fault
was raised by fetch or by an instruction, or the opcode was invalid (R70, R148). -/
inductive StepEnds (s t : State) : Report → Prop
  | completed (i : Instr) (u : State) (hd : decodeWord s.fetchWord = some i) (hu : exec i s = .next u)
      (hf : u.fault = none) (ht : t = u.tick) : StepEnds s t .ok
  | faulted (f : Fault) (ht : t = s.raise f) : StepEnds s t (.fault f)
  | invalid (hd : decodeWord s.fetchWord = none) (ht : t = s ∨ t = s.raise (.invalidOpcode s.fetchWord)) :
      StepEnds s t (.invalidOpcode s.fetchWord)

/-- Every step that answers a next state ends in one of these ways. An instruction starts with nothing latched, so what it leaves
latched it has raised itself. -/
theorem stepEnds_of_step (h : step s = .next t) : ∃ r, stepReport s = .ok r ∧ StepEnds s t r := by
  obtain ⟨hr, ⟨hp, ht⟩ | ⟨hp, hd, ht⟩ | ⟨hp, i, u, hd, hu, ht⟩⟩ := step_next_cases h
  · exact ⟨_, stepReport_of_fetchBeyond hr hp, .faulted _ ht⟩
  · exact ⟨_, stepReport_of_invalid hr hp hd, .invalid hd (ht ▸ s.takeInvalidOpcode_cases _ _)⟩
  · have hreport : stepReport s = reportOfResult (.next u) := hu ▸ stepReport_of_decoded hr hp hd
    obtain hf | ⟨f, rfl⟩ := of_eq_next (exec_next_cases i s) hu
    · have hf : u.fault = none := hf.trans hr.2
      exact ⟨_, hreport.trans (reportOfResult_of_none hf), .completed i u hd hu hf (ht.trans (State.postStep_of_none hf))⟩
    · exact ⟨_, hreport.trans (reportOfResult_of_some rfl), .faulted f (ht.trans (State.postStep_of_some rfl))⟩

/-- A step that does not end with the report ok has changed the latch at most (R75). -/
theorem StepEnds.changesOnlyLatch {r : Report} (h : StepEnds s t r) (hne : r ≠ .ok) : t = { s with fault := t.fault } := by
  cases h with
  | completed => exact absurd rfl hne
  | faulted f ht => rw [ht]; rfl
  | invalid hd ht => obtain rfl | rfl := ht <;> rfl

/-- Settles O18: the report ok is that of a completed step, which leaves nothing latched, and a step with any other report falls
under `StepEnds.changesOnlyLatch`. -/
theorem faultingStepChangesOnlyTheLatch : Obligations.FaultingStepChangesOnlyTheLatch := by
  constructor
  · intro s t f h hf
    obtain ⟨r, hreport, hends⟩ := stepEnds_of_step h
    have hcause : r = .fault f ∨ ∃ op, r = .invalidOpcode op := by
      cases hends with
      | completed i u hd hu hnone ht =>
        subst ht
        cases hf.symm.trans hnone
      | faulted g ht =>
        subst ht
        cases hf
        exact .inl rfl
      | invalid hd ht => exact .inr ⟨_, rfl⟩
    have hne : r ≠ .ok := by
      rintro rfl
      simp at hcause
    exact ⟨hf ▸ hends.changesOnlyLatch hne, by simpa [hreport] using hcause⟩
  · intro s t h hne
    obtain ⟨r, hreport, hends⟩ := stepEnds_of_step h
    exact hends.changesOnlyLatch fun hok => hne (hok ▸ hreport)

/-! ## The timers -/

/-- Settles O20: a completed instruction leaves the timers it does not name as they were (R5), and the post-step then takes one from
each; a step that does not complete falls under `StepEnds.changesOnlyLatch`. -/
theorem timersTickOncePerCompletedStep : Obligations.TimersTickOncePerCompletedStep := by
  constructor
  · intro s i t _ _ hd h hf
    obtain ⟨r, -, hends⟩ := stepEnds_of_step h
    cases hends with
    | completed j u hj hu hnone ht =>
      obtain rfl : j = i := Option.some.inj (hj.symm.trans hd)
      have hframe : ChangesOnlyNamed j s u := of_eq_next (exec_changesOnlyNamed j s) hu
      rw [ht, State.tick_DT, State.tick_ST, toNat_tickTimer, toNat_tickTimer]
      cases j with
      | ldSetdt x | ldSetst x =>
        injection hu with hu
        subst hu
        exact ⟨rfl, rfl, nofun⟩
      | ldGetdt x =>
        injection hu with hu
        subst hu
        refine ⟨rfl, rfl, ?_⟩
        rintro _ ⟨⟩
        exact (s.reg_setReg x x s.DT).trans (if_pos rfl)
      | _ => exact ⟨by rw [hframe.delayTimer nofun], by rw [hframe.soundTimer nofun], nofun⟩
    | faulted f ht =>
      subst ht
      cases hf
    | invalid hinvalid ht => cases hd.symm.trans hinvalid
  · intro s t h hincomplete
    obtain ⟨r, -, hends⟩ := stepEnds_of_step h
    have hne : r ≠ .ok := by
      rintro rfl
      cases hends with
      | completed i u hd hu hnone ht =>
        subst ht
        obtain hlatched | ⟨-, hinvalid⟩ := hincomplete
        · exact hlatched hnone
        · cases hd.symm.trans hinvalid
    have hlatch := hends.changesOnlyLatch hne
    exact ⟨by rw [hlatch], by rw [hlatch]⟩

end Sys2Proof.Machine
end

section
/-!
PROOFS. Control transfer (spec/41_control.md R80 to R87): the target of each move of `PC` as the spec's number, the two
branches of `00EE` and `2NNN`, and what a return finds on the stack a call has left.
-/

namespace Sys2Proof.Machine

variable {s u : State}

/-! ## The targets, on numbers -/

/-- Adding to a word is adding modulo 65536. -/
theorem ofNat_toNat_add_mod (a : Word) (n : Nat) :
    BitVec.ofNat 16 ((a.toNat + n) % 65536) = a + BitVec.ofNat 16 n := by
  refine BitVec.eq_of_toNat_eq ?_
  simp only [BitVec.toNat_ofNat, BitVec.toNat_add]
  omega

theorem State.pcPlus_eq_add (s : State) (n : Nat) : s.pcPlus n = s.PC + BitVec.ofNat 16 n := ofNat_toNat_add_mod s.PC n

theorem immAddress_eq_ofNat (nnn : BitVec 12) : immAddress nnn = BitVec.ofNat 16 nnn.toNat :=
  (BitVec.ofNat_toNat 16 nnn).symm

theorem immAddress_add_byteAsWord_eq_ofNat (nnn : BitVec 12) (b : Byte) :
    immAddress nnn + byteAsWord b = BitVec.ofNat 16 (nnn.toNat + b.toNat) := by
  rw [← toNat_immAddress_add_byteAsWord, BitVec.ofNat_toNat, BitVec.setWidth_eq]

/-- The skip class with its condition as a proposition (R73). -/
theorem State.skipIf_decide (s : State) (c : Prop) [Decidable c] :
    s.skipIf (decide c) = { s with PC := if c then s.pcPlus 4 else s.pcPlus 2 } := by
  simp [State.skipIf, State.pcPlus_eq_add]

/-- A skip on a condition that must not hold has the two targets exchanged (R85, R87). -/
theorem State.skipIf_decide_not (s : State) (c : Prop) [Decidable c] :
    s.skipIf (decide ¬c) = { s with PC := if c then s.pcPlus 2 else s.pcPlus 4 } := by
  rw [State.skipIf_decide, ite_not]

/-! ## Jumps and skips -/

/-- Settles O27: the opcodes are the encodings, and each target is its exact sum, below 65536. -/
theorem jumpsSetPc : Obligations.JumpsSetPc := by
  intro nnn
  refine ⟨decodeWord_encode (i := .jp nnn) rfl, decodeWord_encode (i := .jpV0 nnn) rfl, fun s => ⟨?_, ?_, ?_⟩⟩
  · rw [← immAddress_eq_ofNat]
    rfl
  · rw [← immAddress_add_byteAsWord_eq_ofNat]
    rfl
  · omega

/-- Settles O28: each skip is `State.skipIf` on its condition. -/
theorem registerSkipsGoFourOrTwo : Obligations.RegisterSkipsGoFourOrTwo := by
  intro x y nn
  refine ⟨decodeWord_encode (i := .seI x nn) rfl, decodeWord_encode (i := .sneI x nn) rfl,
    decodeWord_encode (i := .seR x y) rfl, decodeWord_encode (i := .sneR x y) rfl, fun s => ⟨?_, ?_, ?_, ?_⟩⟩
  · exact congrArg _ (s.skipIf_decide _)
  · exact congrArg _ (s.skipIf_decide_not _)
  · exact congrArg _ (s.skipIf_decide _)
  · exact congrArg _ (s.skipIf_decide_not _)

/-! ## Call and return -/

theorem exec_ret_of_pos (h : 0 < s.SP.val) : exec .ret s = .next ((s.pop h).2.jumpTo ((s.pop h).1 + 2)) :=
  congrArg _ (dif_pos h)

theorem exec_ret_of_empty (h : s.SP = 0) : exec .ret s = .next (s.raise (.stackUnderflow s.PC)) :=
  congrArg _ (dif_neg (by simp [h]))

theorem exec_call_of_lt {nnn : BitVec 12} (h : s.SP.val < 16) :
    exec (.call nnn) s = .next ((s.push s.PC h).jumpTo (immAddress nnn)) :=
  congrArg _ (dif_pos h)

theorem exec_call_of_full {nnn : BitVec 12} (h : s.SP.val = 16) :
    exec (.call nnn) s = .next (s.raise (.stackOverflow s.PC)) :=
  congrArg _ (dif_neg (by omega))

/-- Settles O24: with an entry in use the pop and the jump are the two fields the statement names. -/
theorem returnGoesTwoPastTheCall : Obligations.ReturnGoesTwoPastTheCall := by
  refine ⟨decodeWord_encode (i := .ret) rfl, fun s => ⟨fun h => ?_, exec_ret_of_empty⟩⟩
  rw [exec_ret_of_pos h, ofNat_toNat_add_mod]
  rfl

/-- Settles O25: with a slot free the push and the jump are the three fields the statement names. -/
theorem callPushesItsOwnAddress : Obligations.CallPushesItsOwnAddress := by
  intro nnn
  refine ⟨decodeWord_encode (i := .call nnn) rfl, fun s => ⟨fun h => ?_, exec_call_of_full⟩⟩
  rw [exec_call_of_lt h, ← immAddress_eq_ofNat]
  rfl

/-- Where the entries in use are those a push has left, the next pop answers the address pushed (R17). -/
theorem State.pop_of_push {a : Word} (hfree : s.SP.val < 16) (hSP : u.SP = (s.push a hfree).SP)
    (hslots : ∀ k : Fin 16, k.val < (s.push a hfree).SP.val → u.S[k.val] = (s.push a hfree).S[k.val])
    (hused : 0 < u.SP.val) : (u.pop hused).1 = a ∧ (u.pop hused).2.SP = s.SP := by
  have htop : u.SP.val - 1 = s.SP.val := by rw [hSP]; rfl
  refine ⟨?_, Fin.ext htop⟩
  calc (u.pop hused).1
      = u.S[s.SP.val] := getElem_congr_idx htop
    _ = (s.push a hfree).S[s.SP.val] := hslots ⟨s.SP.val, hfree⟩ (Nat.lt_succ_self _)
    _ = a := Vector.getElem_set_self _

/-- Settles O26: the return pops what the call pushed, and neither writes a slot below it (`exec_stackNear`). -/
theorem callThenReturnComesBack : Obligations.CallThenReturnComesBack := by
  intro nnn s t u v hfree ht hSP hslots hv
  have hcall := exec_stackNear ht
  have hret := exec_stackNear hv
  rw [exec_call_of_lt hfree] at ht
  injection ht with ht
  subst ht
  have hSPval : u.SP.val = s.SP.val + 1 := congrArg Fin.val hSP
  have hused : 0 < u.SP.val := by omega
  obtain ⟨hpopped, hpointer⟩ := State.pop_of_push hfree hSP hslots hused
  rw [exec_ret_of_pos hused] at hv
  injection hv with hv
  subst hv
  refine ⟨?_, hpointer, fun k hk => ?_⟩
  · rw [State.jumpTo_PC, hpopped, s.pcPlus_eq_add]
    rfl
  · exact (hret.slots k (by omega)).trans <| (hslots k (Nat.lt_succ_of_lt hk)).trans (hcall.slots k hk)

end Sys2Proof.Machine
end

section
/-!
PROOFS. Register loads and the ALU (spec/42_alu.md R90 to R102): the results and flags as numbers, what an instruction that writes
one register leaves, and what one that writes two leaves, where the later write stands if the two are the same register (R76).
-/

namespace Sys2Proof.Machine

variable {s : State} {r : Result} {x : Reg} {b c : Byte}

/-! ## Results and flags, on numbers (R102) -/

theorem toNat_addBytes (a b : Byte) : (addBytes a b).toNat = (a.toNat + b.toNat) % 256 := BitVec.toNat_ofNat _ _

theorem addBytes_eq_ofNat_mod (a b : Byte) : addBytes a b = BitVec.ofNat 8 ((a.toNat + b.toNat) % 256) := by
  rw [← toNat_addBytes, BitVec.ofNat_toNat, BitVec.setWidth_eq]

/-- The difference is the residue of the exact difference of the numbers. -/
theorem toNat_subBytes (a b : Byte) : ((subBytes a b).toNat : Int) = ((a.toNat : Int) - b.toNat) % 256 := by
  rw [subBytes, BitVec.toNat_ofInt]
  exact Int.toNat_of_nonneg (Int.emod_nonneg _ (by decide))

theorem toNat_carryFlag (a b : Byte) : (carryFlag a b).toNat = if 255 < a.toNat + b.toNat then 1 else 0 := by
  by_cases h : 255 < a.toNat + b.toNat <;> simp [carryFlag, flagByte, h]

theorem toNat_noBorrowFlag (a b : Byte) : (noBorrowFlag a b).toNat = if a.toNat < b.toNat then 0 else 1 := by
  by_cases h : a.toNat < b.toNat <;> simp [noBorrowFlag, flagByte, h]

theorem toNat_shiftRightByte (a : Byte) : (shiftRightByte a).toNat = a.toNat / 2 := Nat.mod_eq_of_lt (by omega)

theorem toNat_lowBitFlag (a : Byte) : (lowBitFlag a).toNat = a.toNat % 2 := Nat.mod_eq_of_lt (by omega)

theorem toNat_shiftLeftByte (a : Byte) : (shiftLeftByte a).toNat = 2 * a.toNat % 256 := BitVec.toNat_ofNat _ _

theorem toNat_highBitFlag (a : Byte) : (highBitFlag a).toNat = a.toNat / 128 := Nat.mod_eq_of_lt (by omega)

/-! ## One register written, then `PC + 2` -/

theorem State.advance_eq (s : State) : s.advance = { s with PC := s.pcPlus 2 } := by
  rw [State.pcPlus_eq_add]
  rfl

theorem State.setReg_advance_eq (s : State) (x : Reg) (b : Byte) :
    (s.setReg x b).advance = { s with V := s.V.set x.val b, PC := s.pcPlus 2 } := State.advance_eq _

/-- Where a register write and the advance are all an instruction does, its answer is the old state but for that register and
`PC`. -/
theorem exists_next_of_setReg (h : r = .next (s.setReg x b).advance) :
    ∃ t, r = .next t ∧ t = { s with V := s.V.set x.val (t.reg x), PC := s.pcPlus 2 } ∧ t.reg x = b := by
  have hreg : (s.setReg x b).advance.reg x = b := by rw [State.reg_advance, State.reg_setReg, if_pos rfl]
  exact ⟨_, h, by rw [hreg, State.setReg_advance_eq], hreg⟩

/-- Settles O29: each instruction is one register write, of the byte the statement names. -/
theorem loadsAndImmediateAdd : Obligations.LoadsAndImmediateAdd := by
  intro x y nn
  refine ⟨decodeWord_encode (i := .ldI x nn) rfl, decodeWord_encode (i := .addI x nn) rfl,
    decodeWord_encode (i := .ldR x y) rfl, fun s => ⟨?_, ?_, ?_⟩⟩
  · exact congrArg _ (s.setReg_advance_eq x nn)
  · rw [← addBytes_eq_ofNat_mod]
    exact congrArg _ (s.setReg_advance_eq x _)
  · exact congrArg _ (s.setReg_advance_eq x (s.reg y))

/-- Settles O30: each instruction is one register write, of a byte whose bits are those of the operands combined. -/
theorem bitwiseOperationsAreBitByBit : Obligations.BitwiseOperationsAreBitByBit := by
  intro x y
  refine ⟨decodeWord_encode (i := .orR x y) rfl, decodeWord_encode (i := .andR x y) rfl,
    decodeWord_encode (i := .xorR x y) rfl, fun s => ⟨?_, ?_, ?_⟩⟩
  · obtain ⟨t, ht, hframe, hreg⟩ := exists_next_of_setReg (r := exec (.orR x y) s) rfl
    exact ⟨t, ht, hframe, fun k _ => hreg ▸ BitVec.getLsbD_or⟩
  · obtain ⟨t, ht, hframe, hreg⟩ := exists_next_of_setReg (r := exec (.andR x y) s) rfl
    exact ⟨t, ht, hframe, fun k _ => hreg ▸ BitVec.getLsbD_and⟩
  · obtain ⟨t, ht, hframe, hreg⟩ := exists_next_of_setReg (r := exec (.xorR x y) s) rfl
    exact ⟨t, ht, hframe, fun k _ => hreg ▸ BitVec.getLsbD_xor⟩

/-- Settles O35: the register written is `rand &&& nn`, and the run without bytes takes the next free one and counts it. -/
theorem randomByteIsMasked : Obligations.RandomByteIsMasked := by
  intro x nn
  refine ⟨decodeWord_encode (i := .rnd x nn) rfl, fun s => ⟨fun rand => ?_, ⟨_, rfl, rfl⟩⟩⟩
  obtain ⟨t, ht, hframe, hreg⟩ := exists_next_of_setReg (r := execWith rand (.rnd x nn) s) rfl
  refine ⟨t, ht, hframe, fun k _ => hreg ▸ BitVec.getLsbD_and, ?_, ?_⟩
  · rintro rfl
    exact hreg.trans BitVec.and_zero
  · rintro rfl
    exact hreg.trans BitVec.and_allOnes

/-! ## Two registers written, then `PC + 2` -/

/-- Where two register writes and the advance are all an instruction does, its answer is the old state but for those registers and
`PC`, and the later write stands where the two registers are one (R76, D9). -/
theorem exists_next_of_setReg_setReg {first last : Reg}
    (h : r = .next ((s.setReg first b).setReg last c).advance) :
    ∃ t, r = .next t ∧ t = { s with V := t.V, PC := s.pcPlus 2 } ∧
      (∀ q, q ≠ first → q ≠ last → t.reg q = s.reg q) ∧ (first ≠ last → t.reg first = b) ∧ t.reg last = c := by
  refine ⟨_, h, State.advance_eq _, fun q hfirst hlast => ?_, fun hne => ?_, ?_⟩
  · rw [State.reg_advance, State.reg_setReg, if_neg hlast, State.reg_setReg, if_neg hfirst]
  · rw [State.reg_advance, State.reg_setReg, if_neg hne, State.reg_setReg, if_pos rfl]
  · rw [State.reg_advance, State.reg_setReg, if_pos rfl]

/-- A writer of the flag and then the result: VX holds the result, and VF the flag unless X is F (R97 to R100). -/
theorem exists_next_of_flagThenResult {flag result : Byte} (h : r = .next (s.flagThenResult x flag result).advance) :
    ∃ t, r = .next t ∧ t = { s with V := t.V, PC := s.pcPlus 2 } ∧
      (∀ q, q ≠ x → q ≠ VF → t.reg q = s.reg q) ∧ t.reg x = result ∧ (x ≠ VF → t.reg VF = flag) := by
  obtain ⟨t, ht, hframe, hothers, hflag, hresult⟩ := exists_next_of_setReg_setReg h
  exact ⟨t, ht, hframe, fun q hx hf => hothers q hf hx, hresult, fun hx => hflag hx.symm⟩

/-- Settles O31: the carry is the later of the two writes. -/
theorem addWritesTheSumThenTheCarry : Obligations.AddWritesTheSumThenTheCarry := by
  intro x y
  refine ⟨decodeWord_encode (i := .addR x y) rfl, fun s => ?_⟩
  obtain ⟨t, ht, hframe, hothers, hsum, hcarry⟩ := exists_next_of_setReg_setReg (r := exec (.addR x y) s) rfl
  exact ⟨t, ht, hframe, hothers, fun hx => hsum hx ▸ toNat_addBytes _ _, hcarry ▸ toNat_carryFlag _ _⟩

/-- Settles O32: the difference is the later of the two writes. -/
theorem subWritesTheFlagThenTheDifference : Obligations.SubWritesTheFlagThenTheDifference := by
  intro x y
  refine ⟨decodeWord_encode (i := .sub x y) rfl, fun s => ?_⟩
  obtain ⟨t, ht, hframe, hothers, hresult, hflag⟩ := exists_next_of_flagThenResult (r := exec (.sub x y) s) rfl
  exact ⟨t, ht, hframe, hothers, hresult ▸ toNat_subBytes _ _, fun hx => hflag hx ▸ toNat_noBorrowFlag _ _⟩

/-- Settles O33: as O32 with the operands exchanged. -/
theorem subnWritesTheFlagThenTheReverseDifference : Obligations.SubnWritesTheFlagThenTheReverseDifference := by
  intro x y
  refine ⟨decodeWord_encode (i := .subn x y) rfl, fun s => ?_⟩
  obtain ⟨t, ht, hframe, hothers, hresult, hflag⟩ := exists_next_of_flagThenResult (r := exec (.subn x y) s) rfl
  exact ⟨t, ht, hframe, hothers, hresult ▸ toNat_subBytes _ _, fun hx => hflag hx ▸ toNat_noBorrowFlag _ _⟩

/-- Settles O34: the shifted value is the later of the two writes, and neither write mentions Y. -/
theorem shiftsWriteTheBitThenTheValue : Obligations.ShiftsWriteTheBitThenTheValue := by
  intro x y
  refine ⟨decodeWord_encode (i := .shr x y) rfl, decodeWord_encode (i := .shl x y) rfl, fun s => ⟨?_, ?_⟩⟩
  · obtain ⟨t, ht, hframe, hothers, hresult, hflag⟩ := exists_next_of_flagThenResult (r := exec (.shr x y) s) rfl
    exact ⟨t, ht, hframe, hothers, hresult ▸ toNat_shiftRightByte _, fun hx => hflag hx ▸ toNat_lowBitFlag _⟩
  · obtain ⟨t, ht, hframe, hothers, hresult, hflag⟩ := exists_next_of_flagThenResult (r := exec (.shl x y) s) rfl
    exact ⟨t, ht, hframe, hothers, hresult ▸ toNat_shiftLeftByte _, fun hx => hflag hx ▸ toNat_highBitFlag _⟩

end Sys2Proof.Machine
end

section
/-!
PROOFS. Index register and memory (spec/43_index_memory.md R110 to R115): the index register's new values as the spec's numbers,
the frame of the stores, the registers a block load leaves, and the fault of an access whose last byte lies above 0xFFF.
-/

namespace Sys2Proof.Machine

variable {s : State} {x : Reg}

/-! ## The index register -/

/-- A register's byte keeps its value as a word. -/
theorem byteAsWord_eq_ofNat (b : Byte) : byteAsWord b = BitVec.ofNat 16 b.toNat := (BitVec.ofNat_toNat 16 b).symm

/-- After a block transfer `I` is one past the block, modulo 65536 (R114, R115). -/
theorem State.indexAfterBlock_eq_ofNat (s : State) (x : Reg) :
    s.indexAfterBlock x = BitVec.ofNat 16 ((s.I.toNat + x.val + 1) % 65536) :=
  (ofNat_toNat_add_mod s.I (x.val + 1)).symm

theorem State.setIndex_advance_eq (s : State) (a : Word) :
    (s.setIndex a).advance = { s with I := a, PC := s.pcPlus 2 } := State.advance_eq _

/-- Settles O36: each instruction is one write of `I`, of the word the statement names. -/
theorem indexInstructionsWriteIOnly : Obligations.IndexInstructionsWriteIOnly := by
  intro x nnn
  refine ⟨decodeWord_encode (i := .ldIdx nnn) rfl, decodeWord_encode (i := .addIdx x) rfl,
    decodeWord_encode (i := .ldGlyph x) rfl, fun s => ⟨?_, ?_, ?_⟩⟩
  · rw [← immAddress_eq_ofNat]
    exact congrArg _ (s.setIndex_advance_eq _)
  · rw [ofNat_toNat_add_mod, ← byteAsWord_eq_ofNat]
    exact congrArg _ (s.setIndex_advance_eq _)
  · exact congrArg _ (s.setIndex_advance_eq _)

/-! ## An access whose last byte is no address (R37, R153) -/

/-- An access to `k + 1` bytes whose last one, at `I + k`, lies above 0xFFF only raises the fault. -/
theorem State.accessing_of_lt {k : Nat} (h : 0xFFF < s.I.toNat + k) (effect : State) :
    s.accessing (k + 1) effect = s.raise (.memoryOutOfRange (s.I.toNat + k)) := by
  refine State.accessing_of_outOfRange (Bool.eq_false_iff.2 fun hin => ?_) effect
  have hlast := (s.inRange_iff (k + 1)).1 hin
  omega

theorem exec_bcd_of_lt (h : 0xFFF < s.I.toNat + 2) :
    exec (.bcd x) s = .next (s.raise (.memoryOutOfRange (s.I.toNat + 2))) := congrArg _ (State.accessing_of_lt h _)

theorem exec_stm_of_lt (h : 0xFFF < s.I.toNat + x.val) :
    exec (.stm x) s = .next (s.raise (.memoryOutOfRange (s.I.toNat + x.val))) := congrArg _ (State.accessing_of_lt h _)

theorem exec_ldm_of_lt (h : 0xFFF < s.I.toNat + x.val) :
    exec (.ldm x) s = .next (s.raise (.memoryOutOfRange (s.I.toNat + x.val))) := congrArg _ (State.accessing_of_lt h _)

/-! ## The stores -/

/-- Settles O37: the three digits are the bytes stored (`read_of_exec_bcd`), and a store leaves every address outside it alone. -/
theorem bcdStoresThreeDigits : Obligations.BcdStoresThreeDigits := by
  intro x
  refine ⟨decodeWord_encode (i := .bcd x) rfl, fun s => ⟨fun hm hI => ?_, exec_bcd_of_lt⟩⟩
  have hexec := exec_bcd_of_le (x := x) hI
  obtain ⟨hhundreds, htens, hunits⟩ := read_of_exec_bcd hm hI hexec
  exact ⟨_, hexec, State.advance_eq _, hhundreds, htens, hunits, fun _ ha => Memory.read_writeBytes_outside _ _ ha⟩

/-- Settles O38: the registers of the block are the bytes stored (`read_of_exec_stm`), and a store leaves every address outside it
alone. -/
theorem storeBlockWritesRegistersAndMovesI : Obligations.StoreBlockWritesRegistersAndMovesI := by
  intro x
  refine ⟨decodeWord_encode (i := .stm x) rfl, fun s => ⟨fun hm hI => ?_, exec_stm_of_lt⟩⟩
  have hexec := exec_stm_of_le hI
  refine ⟨_, hexec, ?_, fun k hk => read_of_exec_stm hm hk hI hexec, fun a ha => ?_⟩
  · rw [← s.indexAfterBlock_eq_ofNat]
    exact State.advance_eq _
  · refine Memory.read_writeBytes_outside _ _ ?_
    rw [s.length_regBlock]
    omega

/-! ## The block load -/

/-- The registers after `FX65`, where the block lies in memory (R115). -/
def State.loadedRegs (s : State) (x : Reg) : Vector Byte 16 :=
  setRegsFrom s.V 0 (s.mem.readBytes s.I.toNat (blockLength x))

theorem exec_ldm_of_le (h : s.I.toNat + x.val ≤ 0xFFF) :
    exec (.ldm x) s = .next { s with V := s.loadedRegs x, I := s.indexAfterBlock x }.advance :=
  congrArg _ (State.accessing_of_inRange ((s.inRange_iff _).2 (.inr h)) _)

/-- V0 to VX hold the bytes from `I` on, and a register above VX what it held (R115). -/
theorem State.getElem_loadedRegs (s : State) (x k : Reg) :
    (s.loadedRegs x)[k.val] = if k ≤ x then s.mem.read (s.I.toNat + k.val) else s.reg k := by
  rw [State.loadedRegs, getElem_setRegsFrom]
  by_cases hk : k ≤ x
  · have hin : k.val < blockLength x := Nat.lt_succ_of_le hk
    rw [if_pos hk, dif_pos (by simpa using hin), Memory.getElem_readBytes]
    rfl
  · have hout : ¬ k.val < blockLength x := fun hin => hk (Nat.le_of_lt_succ hin)
    rw [if_neg hk, dif_neg (by simpa using hout)]
    rfl

/-- Settles O39: what each register holds after the load is `State.getElem_loadedRegs`. -/
theorem loadBlockReadsRegistersAndMovesI : Obligations.LoadBlockReadsRegistersAndMovesI := by
  intro x
  refine ⟨decodeWord_encode (i := .ldm x) rfl, fun s => ⟨fun hI => ?_, exec_ldm_of_lt⟩⟩
  refine ⟨_, exec_ldm_of_le hI, ?_, s.getElem_loadedRegs x⟩
  rw [← s.indexAfterBlock_eq_ofNat]
  exact State.advance_eq _

end Sys2Proof.Machine
end

section
/-!
PROOFS. The display instructions (spec/44_display.md R120 to R123): the pixels under the set bits of a sprite, the state a draw
leaves, and the fault of a sprite whose last byte lies above 0xFFF.
-/

namespace Sys2Proof.Machine

variable {s : State} {x y : Reg} {n : Nat}

/-! ## Pixels by coordinates (R20, R122) -/

/-- Coordinates that have been wrapped already name the same pixel. -/
theorem pixelIndex_mod (px py : Nat) : pixelIndex (px % 64) (py % 32) = pixelIndex px py :=
  pixelIndex_eq_iff.2 ⟨Nat.mod_mod _ _, Nat.mod_mod _ _⟩

theorem pixelIndex_eq_iff_of_lt {a b px py : Nat} (hpx : px < 64) (hpy : py < 32) :
    pixelIndex a b = pixelIndex px py ↔ a % 64 = px ∧ b % 32 = py := by
  rw [pixelIndex_eq_iff, Nat.mod_eq_of_lt hpx, Nat.mod_eq_of_lt hpy]

/-- The pixels at the coordinates inside the display are all 2048 of it. -/
theorem exists_pixelIndex {p : Fin 2048 → Prop} : (∃ px < 64, ∃ py < 32, p (pixelIndex px py)) ↔ ∃ k, p k := by
  refine ⟨fun ⟨px, _, py, _, hp⟩ => ⟨_, hp⟩, fun ⟨k, hp⟩ => ?_⟩
  have hk : pixelIndex (k.val % 64) (k.val / 64) = k := Fin.ext (by simp only [pixelIndex]; omega)
  exact ⟨k.val % 64, by omega, k.val / 64, by omega, hk.symm ▸ hp⟩

/-! ## Clearing -/

/-- Settles O40: the new buffer is 2048 times the clear pixel. -/
theorem clearBlanksTheDisplay : Obligations.ClearBlanksTheDisplay :=
  ⟨decodeWord_encode (i := .cls) rfl, fun _ => ⟨_, rfl, State.advance_eq _, fun k => Vector.getElem_replicate k.isLt⟩⟩

/-! ## The pixels under a sprite's set bits -/

/-- The pixels that `DXYN` inverts in the state `s`. -/
def State.drawnPixels (s : State) (x y : Reg) (n : Nat) : List (Fin 2048) :=
  spritePixels (s.reg x).toNat (s.reg y).toNat (s.mem.readBytes s.I.toNat n)

/-- They are those on which some set sprite bit falls (R121, R122). -/
theorem State.mem_drawnPixels {k : Fin 2048} :
    k ∈ s.drawnPixels x y n ↔
      ∃ r < n, ∃ c < 8, (s.mem.read (s.I.toNat + r)).getLsbD (7 - c) = true ∧
        pixelIndex ((s.reg x).toNat + c) ((s.reg y).toNat + r) = k := by
  simp only [State.drawnPixels, mem_spritePixels, Memory.length_readBytes, Memory.getElem_readBytes, exists_prop, spriteBit,
    eq_comm (a := k)]

/-- Some pixel under the sprite has a property exactly where the pixel of some set sprite bit has it. -/
theorem State.exists_mem_drawnPixels {p : Fin 2048 → Prop} :
    (∃ k ∈ s.drawnPixels x y n, p k) ↔
      ∃ r < n, ∃ c < 8, (s.mem.read (s.I.toNat + r)).getLsbD (7 - c) = true ∧
        p (pixelIndex ((s.reg x).toNat + c) ((s.reg y).toNat + r)) := by
  simp only [State.mem_drawnPixels]
  constructor
  · rintro ⟨_, ⟨r, hr, c, hc, hbit, rfl⟩, hp⟩
    exact ⟨r, hr, c, hc, hbit, hp⟩
  · rintro ⟨r, hr, c, hc, hbit, hp⟩
    exact ⟨_, ⟨r, hr, c, hc, hbit, rfl⟩, hp⟩

/-- A sprite has at most 15 rows, so no two of its bits fall on one pixel. -/
theorem State.nodup_drawnPixels (s : State) (x y : Reg) (hn : n ≤ 15) : (s.drawnPixels x y n).Nodup :=
  nodup_spritePixels (by rw [Memory.length_readBytes]; omega)

theorem State.drawSprite_eq_foldl (s : State) (x y : Reg) (n : Nat) :
    s.drawSprite x y n = (s.drawnPixels x y n).foldl invertPixel { buffer := s.FB, collision := false } :=
  drawRows_eq_foldl _ _ _ _

/-! ## The state a draw leaves (R121) -/

/-- The state after `DXYN`, where the sprite lies in memory. -/
def State.drawn (s : State) (x y : Reg) (n : Nat) : State :=
  ({ s with FB := (s.drawSprite x y n).buffer, dirty := true }.setReg VF (flagByte (s.drawSprite x y n).collision)).advance

theorem exec_drw_of_le (h : n = 0 ∨ s.I.toNat + n - 1 ≤ 0xFFF) : exec (.drw x y n) s = .next (s.drawn x y n) :=
  congrArg _ (State.accessing_of_inRange ((s.inRange_iff n).2 h) _)

theorem exec_drw_of_lt (hn : 0 < n) (h : 0xFFF < s.I.toNat + n - 1) :
    exec (.drw x y n) s = .next (s.raise (.memoryOutOfRange (s.I.toNat + n - 1))) := by
  refine congrArg _ (State.accessing_of_outOfRange (Bool.eq_false_iff.2 fun hin => ?_) _)
  have hlast := (s.inRange_iff n).1 hin
  omega

theorem State.drawn_FB (s : State) (x y : Reg) (n : Nat) : (s.drawn x y n).FB = (s.drawSprite x y n).buffer := rfl

theorem State.reg_drawn_VF (s : State) (x y : Reg) (n : Nat) :
    (s.drawn x y n).reg VF = flagByte (s.drawSprite x y n).collision := by
  rw [State.drawn, State.reg_advance, State.reg_setReg, if_pos rfl]

/-- A draw writes VF, the display, `dirty` and `PC`, and nothing else. -/
theorem State.drawn_eq (s : State) (x y : Reg) (n : Nat) :
    s.drawn x y n =
      { s with V := s.V.set 15 ((s.drawn x y n).reg 15), FB := (s.drawn x y n).FB, dirty := true, PC := s.pcPlus 2 } := by
  rw [s.reg_drawn_VF]
  exact State.advance_eq _

/-- A pixel after a draw is inverted exactly where it lies under a set sprite bit. -/
theorem State.getElem_drawn_FB (s : State) (x y : Reg) (hn : n ≤ 15) (k : Fin 2048) :
    (s.drawn x y n).FB[k.val] = (s.FB[k.val] ^^ decide (k ∈ s.drawnPixels x y n)) := by
  simp only [s.drawn_FB, s.drawSprite_eq_foldl, getElem_foldl_invertPixel (s.nodup_drawnPixels x y hn)]

theorem State.reg_drawn_eq_zero_or_one (s : State) (x y : Reg) (n : Nat) :
    (s.drawn x y n).reg 15 = 0 ∨ (s.drawn x y n).reg 15 = 1 := by
  rw [s.reg_drawn_VF]
  cases (s.drawSprite x y n).collision
  · exact .inl rfl
  · exact .inr rfl

/-- The flag is 1 exactly where a pixel under a set sprite bit was set before (R123). -/
theorem State.reg_drawn_eq_one_iff (s : State) (x y : Reg) (hn : n ≤ 15) :
    (s.drawn x y n).reg 15 = 1 ↔ ∃ k ∈ s.drawnPixels x y n, s.FB[k.val] = true := by
  have hflag : (s.drawn x y n).reg 15 = 1 ↔ (s.drawSprite x y n).collision = true := by
    rw [s.reg_drawn_VF]
    cases (s.drawSprite x y n).collision <;> decide
  rw [hflag, s.drawSprite_eq_foldl, collision_foldl_invertPixel (s.nodup_drawnPixels x y hn)]
  simp only [Bool.false_eq_true, false_or]

/-- Only under a set sprite bit can a pixel go from set to clear, and there each set one does. -/
theorem State.reg_drawn_eq_one_iff_cleared (s : State) (x y : Reg) (hn : n ≤ 15) :
    (s.drawn x y n).reg 15 = 1 ↔
      ∃ px < 64, ∃ py < 32, s.FB.pixel px py = true ∧ (s.drawn x y n).FB.pixel px py = false := by
  rw [s.reg_drawn_eq_one_iff x y hn]
  refine Iff.trans ?_ (exists_pixelIndex (p := fun k => s.FB[k.val] = true ∧ (s.drawn x y n).FB[k.val] = false)).symm
  refine exists_congr fun k => ?_
  rw [s.getElem_drawn_FB x y hn, and_comm]
  exact and_congr_right fun hset => by simp [hset]

/-- A pixel inside the display changes exactly where some set sprite bit falls on it (R121, R122). -/
theorem State.pixel_drawn_ne_iff (s : State) (x y : Reg) (hn : n ≤ 15) {px py : Nat} (hpx : px < 64) (hpy : py < 32) :
    (s.drawn x y n).FB.pixel px py ≠ s.FB.pixel px py ↔
      ∃ r < n, ∃ c < 8, (s.mem.read (s.I.toNat + r)).getLsbD (7 - c) = true ∧
        ((s.reg x).toNat + c) % 64 = px ∧ ((s.reg y).toNat + r) % 32 = py := by
  have hchanged : (s.drawn x y n).FB.pixel px py ≠ s.FB.pixel px py ↔ pixelIndex px py ∈ s.drawnPixels x y n := by
    simp only [Display.pixel, s.getElem_drawn_FB x y hn, ne_eq]
    cases s.FB[(pixelIndex px py).val] <;> simp
  simp only [hchanged, State.mem_drawnPixels, pixelIndex_eq_iff_of_lt hpx hpy]

/-! ## The statements about `DXYN` -/

/-- Settles O43: the access is out of range. -/
theorem drawBeyondMemoryLatches : Obligations.DrawBeyondMemoryLatches := fun _ _ _ _ => exec_drw_of_lt

/-- Settles O41: the frame is `State.drawn_eq`, the pixels are `State.pixel_drawn_ne_iff`, and the flag, 0 or 1, is 1 exactly
where a pixel has been cleared. -/
theorem drawInvertsExactlyTheSpritePixels : Obligations.DrawInvertsExactlyTheSpritePixels := by
  intro x y n hn
  refine ⟨decodeWord_encode (i := .drw x y n) (decide_eq_true hn), fun s => ⟨fun h => ?_, exec_drw_of_lt⟩⟩
  have hcleared := s.reg_drawn_eq_one_iff_cleared x y hn
  refine ⟨_, exec_drw_of_le h, s.drawn_eq x y n, fun _ _ => s.pixel_drawn_ne_iff x y hn, ?_⟩
  obtain hzero | hone := s.reg_drawn_eq_zero_or_one x y n
  · exact .inr ⟨hzero, fun hc => absurd (hzero.symm.trans (hcleared.2 hc)) (by decide)⟩
  · exact .inl ⟨hone, hcleared.1 hone⟩

/-- Settles O42: the pixels under set sprite bits, each by its wrapped coordinates. -/
theorem collisionFlagIsAnyOverlap : Obligations.CollisionFlagIsAnyOverlap := by
  intro x y n s hn h
  refine ⟨_, exec_drw_of_le h, s.reg_drawn_eq_zero_or_one x y n, ?_⟩
  simp only [s.reg_drawn_eq_one_iff x y hn, State.exists_mem_drawnPixels, Display.pixel, pixelIndex_mod]

/-- Settles O44: both draws invert the same pixels, and on a blank display the first one has set exactly those. -/
theorem drawingTwiceRestoresTheDisplay : Obligations.DrawingTwiceRestoresTheDisplay := by
  intro x y n s t u v hn h ht hu hv
  rw [exec_drw_of_le h] at ht
  injection ht with ht
  subst ht
  have hI : u.I = s.I := hu ▸ rfl
  have hpixels : u.drawnPixels x y n = s.drawnPixels x y n := hu ▸ rfl
  have hfirst (k : Fin 2048) : u.FB[k.val] = (s.FB[k.val] ^^ decide (k ∈ s.drawnPixels x y n)) := by
    rw [← s.getElem_drawn_FB x y hn, hu]
  rw [exec_drw_of_le (hI ▸ h)] at hv
  injection hv with hv
  subst hv
  refine ⟨Vector.ext fun k hk => ?_, fun hblank => ⟨?_, ?_⟩⟩
  · have hsecond := u.getElem_drawn_FB x y hn ⟨k, hk⟩
    rw [hsecond, hfirst, hpixels, Bool.xor_assoc, Bool.xor_self, Bool.xor_false]
  · refine (s.reg_drawn_eq_zero_or_one x y n).resolve_right fun hone => ?_
    obtain ⟨k, -, hset⟩ := (s.reg_drawn_eq_one_iff x y hn).1 hone
    exact absurd ((hblank k).symm.trans hset) (by decide)
  · rw [u.reg_drawn_eq_one_iff x y hn, hpixels, State.exists_mem_drawnPixels]
    have hset : ∀ k ∈ s.drawnPixels x y n, u.FB[k.val] = true := fun k hk => by
      rw [hfirst, hblank, Bool.false_xor, decide_eq_true hk]
    constructor
    · rintro ⟨r, hr, c, hc, hbit, -⟩
      exact ⟨r, hr, c, hc, hbit⟩
    · rintro ⟨r, hr, c, hc, hbit⟩
      exact ⟨r, hr, c, hc, hbit, hset _ (State.mem_drawnPixels.2 ⟨r, hr, c, hc, hbit, rfl⟩)⟩

end Sys2Proof.Machine
end

section
/-!
PROOFS. Keypad and timers (spec/45_keypad_timers.md R130 to R135): the two branches of the key skips, the key a wait takes, and the
tick that follows a timer instruction in its own step.
-/

namespace Sys2Proof.Machine

variable {s u : State} {x : Reg}

/-! ## The key skips (R130, R131) -/

theorem exec_skp_of_lt (h : (s.reg x).toNat < 16) : exec (.skp x) s = .next (s.skipIf s.K[(s.reg x).toNat]) :=
  congrArg _ (dif_pos h)

theorem exec_sknp_of_lt (h : (s.reg x).toNat < 16) : exec (.sknp x) s = .next (s.skipIf (!s.K[(s.reg x).toNat])) :=
  congrArg _ (dif_pos h)

theorem exec_skp_of_le (h : 16 ≤ (s.reg x).toNat) : exec (.skp x) s = .next (s.raise (.keyIndexOutOfRange (s.reg x))) :=
  congrArg _ (dif_neg (Nat.not_lt.2 h))

theorem exec_sknp_of_le (h : 16 ≤ (s.reg x).toNat) : exec (.sknp x) s = .next (s.raise (.keyIndexOutOfRange (s.reg x))) :=
  congrArg _ (dif_neg (Nat.not_lt.2 h))

theorem State.skipIf_eq (s : State) (c : Bool) :
    s.skipIf c = { s with PC := if c then s.pcPlus 4 else s.pcPlus 2 } := by
  rw [← s.skipIf_decide (c = true), Bool.decide_eq_true]

/-- A skip on a key that must be up has the two targets exchanged (R131). -/
theorem State.skipIf_not_eq (s : State) (c : Bool) :
    s.skipIf (!c) = { s with PC := if c then s.pcPlus 2 else s.pcPlus 4 } := by
  rw [← s.skipIf_decide_not (c = true), decide_not, Bool.decide_eq_true]

/-- Settles O45: a register that holds a key's number reads that key, and one above 15 raises the fault. -/
theorem keySkipsTestTheKey : Obligations.KeySkipsTestTheKey := by
  intro x
  refine ⟨decodeWord_encode (i := .skp x) rfl, decodeWord_encode (i := .sknp x) rfl, fun s => ⟨fun k hk => ?_, fun h => ?_⟩⟩
  · have hlt : (s.reg x).toNat < 16 := hk ▸ k.isLt
    obtain rfl : k = ⟨(s.reg x).toNat, hlt⟩ := Fin.ext hk.symm
    exact ⟨(exec_skp_of_lt hlt).trans (congrArg _ (s.skipIf_eq _)),
      (exec_sknp_of_lt hlt).trans (congrArg _ (s.skipIf_not_eq _))⟩
  · exact ⟨exec_skp_of_le h, exec_sknp_of_le h⟩

/-! ## A step whose instruction completes (R70, R74) -/

/-- The step of an instruction that leaves nothing latched is that instruction and one tick. -/
theorem step_of_completed {i : Instr} (hr : s.running) (hp : s.PC.toNat ≤ 0xFFE) (hd : decodeWord s.fetchWord = some i)
    (hu : exec i s = .next u) (hf : u.fault = none) : step s = .next u.tick := by
  rw [step_of_decoded hr hp hd, hu, finishStep, State.postStep_of_none hf]

/-! ## The key wait (R132) -/

theorem exec_ldKey_of_some {k : Reg} (h : lowestPressed s.K = some k) :
    exec (.ldKey x) s = .next (s.setReg x (BitVec.ofNat 8 k.val)).advance := by
  rw [exec, execLdKey, h]

theorem exec_ldKey_of_none (h : lowestPressed s.K = none) : exec (.ldKey x) s = .next s := by
  rw [exec, execLdKey, h]

/-- Settles O46: the two clauses are the two answers of `lowestPressed`, and a wait leaves the tick of its step alone to change
anything. -/
theorem keyWaitTakesTheLowestKey : Obligations.KeyWaitTakesTheLowestKey := by
  intro x
  refine ⟨decodeWord_encode (i := .ldKey x) rfl, fun s => ⟨fun k hk hbelow => ?_, fun hup => ?_⟩⟩
  · rw [exec_ldKey_of_some (lowestPressed_eq_some.2 ⟨hk, hbelow⟩), State.setReg_advance_eq]
  · have hwait := exec_ldKey_of_none (x := x) (lowestPressed_eq_none.2 hup)
    exact ⟨hwait, fun hr hp hd =>
      ⟨s.tick, step_of_completed hr hp hd hwait hr.2, rfl, toNat_tickTimer s.DT, toNat_tickTimer s.ST⟩⟩

/-! ## The timer registers (R133 to R135) -/

/-- Settles O47: the three instructions latch nothing, so the tick of the step follows the write of the instruction. -/
theorem timerRegistersReadAndWrite : Obligations.TimerRegistersReadAndWrite := by
  intro x
  refine ⟨decodeWord_encode (i := .ldGetdt x) rfl, decodeWord_encode (i := .ldSetdt x) rfl,
    decodeWord_encode (i := .ldSetst x) rfl, fun s => ⟨?_, ?_, ?_, fun hr hp => ⟨fun hd => ?_, fun hd => ?_, fun hd => ?_⟩⟩⟩
  · exact congrArg _ (s.setReg_advance_eq x s.DT)
  · exact congrArg _ (State.advance_eq _)
  · exact congrArg _ (State.advance_eq _)
  · exact ⟨_, step_of_completed hr hp hd rfl hr.2, (s.reg_setReg x x s.DT).trans (if_pos rfl), toNat_tickTimer s.DT⟩
  · exact ⟨_, step_of_completed hr hp hd rfl hr.2, toNat_tickTimer (s.reg x)⟩
  · exact ⟨_, step_of_completed hr hp hd rfl hr.2, toNat_tickTimer (s.reg x)⟩

end Sys2Proof.Machine
end

section
/-!
PROOFS. The host's operations on a loaded machine (R141, R142, R144, R145), an equation each, and all that an event can do (R140,
R146).
-/

namespace Sys2Proof.Machine

variable {s t u : State}

/-! ## The operations while a program is loaded -/

theorem State.whenLoaded_of_loaded {α : Type} (hl : s.loaded = true) (a : α) : s.whenLoaded a = .ok a := if_pos hl

theorem State.after_setKey (hl : s.loaded = true) (k : Fin 16) (p : Bool) :
    s.after (.setKey k p) = some { s with K := s.K.set k.val p } := by
  rw [State.after, State.setKey, State.whenLoaded_of_loaded hl]
  rfl

theorem State.after_takeFrame (hl : s.loaded = true) : s.after .takeFrame = some { s with dirty := false } := by
  rw [State.after, State.takeFrame, State.whenLoaded_of_loaded hl]
  rfl

theorem State.after_isDirty (hl : s.loaded = true) : s.after .isDirty = some s := by
  rw [State.after, State.isDirty, State.whenLoaded_of_loaded hl]
  rfl

theorem State.after_delayTimer (hl : s.loaded = true) : s.after .delayTimer = some s := by
  rw [State.after, State.delayTimer, State.whenLoaded_of_loaded hl]
  rfl

theorem State.after_soundTimer (hl : s.loaded = true) : s.after .soundTimer = some s := by
  rw [State.after, State.soundTimer, State.whenLoaded_of_loaded hl]
  rfl

/-- Settles O8: the state `set_key` answers has one element of `K` replaced. -/
theorem setKeyWritesThatKeyOnly : Obligations.SetKeyWritesThatKeyOnly := by
  intro s k p hl
  refine ⟨{ s with K := s.K.set k.val p }, State.whenLoaded_of_loaded hl _, rfl, fun j => ?_⟩
  simp only [Vector.getElem_set, Fin.ext_iff, eq_comm (a := k.val)]

/-- Settles O9: a drain leaves the program loaded, so the second one and `is_dirty` are answered too. -/
theorem takeFrameReturnsTheBufferAndClearsDirty : Obligations.TakeFrameReturnsTheBufferAndClearsDirty := by
  intro s hl
  have hl' : State.loaded { s with dirty := false } = true := hl
  exact ⟨_, State.whenLoaded_of_loaded hl _, rfl, State.whenLoaded_of_loaded hl' _, State.whenLoaded_of_loaded hl' _⟩

/-- Settles O10, by the equations of the two accessors. -/
theorem timerAccessorsAnswerAndChangeNothing : Obligations.TimerAccessorsAnswerAndChangeNothing := fun _ hl =>
  ⟨State.whenLoaded_of_loaded hl _, State.after_delayTimer hl, State.whenLoaded_of_loaded hl _, State.after_soundTimer hl⟩

/-! ## All that an event can do -/

/-- The ways an event can lead from `s` to `t`: a step that answers `t`, a load, or any other operation, which at most changes
keys and `dirty`; a step of a stopped machine counts as such, since it changes nothing. -/
inductive EventEffect (s t : State) : Prop
  | stepped (r : Byte) (h : s.stepWith r = .next t)
  | loaded (rom : List Byte) (h : t = (s.resetAndLoad rom).2)
  | hostOnly (K : Vector Bool 16) (dirty : Bool) (h : t = { s with K := K, dirty := dirty })

/-- An event that is no load has a meaning only while a program is loaded, so its next state is known from what it does then
(R24, D17). -/
theorem eq_of_after {e : Event} (h : s.after e = some t) (he : ∀ rom, e ≠ .resetAndLoad rom)
    (hloaded : s.loaded = true → s.after e = some u) : t = u := by
  cases hl : s.loaded with
  | false => cases h.symm.trans (State.after_of_notLoaded hl he)
  | true => exact Option.some.inj (h.symm.trans (hloaded hl))

theorem eventEffect_of_after {e : Event} (h : s.after e = some t) : EventEffect s t := by
  cases e with
  | step r =>
    rw [State.after] at h
    cases hstep : s.stepWith r with
    | next u =>
      rw [hstep] at h
      exact .stepped r (hstep.trans (congrArg _ (Option.some.inj h)))
    | fault f =>
      rw [hstep] at h
      exact .hostOnly _ _ (Option.some.inj h).symm
    | refused q =>
      rw [hstep] at h
      cases h
  | resetAndLoad rom => exact .loaded rom (Option.some.inj h).symm
  | setKey k p => exact .hostOnly _ _ (eq_of_after h nofun fun hl => State.after_setKey hl k p)
  | takeFrame => exact .hostOnly _ _ (eq_of_after h nofun State.after_takeFrame)
  | isDirty => exact .hostOnly _ _ (eq_of_after h nofun State.after_isDirty)
  | delayTimer => exact .hostOnly _ _ (eq_of_after h nofun State.after_delayTimer)
  | soundTimer => exact .hostOnly _ _ (eq_of_after h nofun State.after_soundTimer)

/-- A property that every event keeps is kept by every sequence of events (R146). -/
theorem afterAll_induction {Q : State → Prop} (hafter : ∀ (s t : State) (e : Event), Q s → s.after e = some t → Q t)
    (es : List Event) (hs : Q s) (h : s.afterAll es = some t) : Q t := by
  induction es generalizing s with
  | nil => exact Option.some.inj h ▸ hs
  | cons e es ih =>
    obtain ⟨u, hu, hrest⟩ := Option.bind_eq_some_iff.1 h
    exact ih (hafter s u e hs hu) hrest

end Sys2Proof.Machine
end

section
/-!
PROOFS. The invariant along every sequence of events (R146): a step keeps it whatever byte it is given, and a load establishes
it or leaves it.
-/

namespace Sys2Proof.Machine

variable {s t : State}

/-- The counterpart of `step_next_induction` for a step with its byte as an argument. -/
theorem stepWith_next_induction {r : Byte} {Q : State → Prop} (h : s.stepWith r = .next t) (hs : Q s)
    (hraise : ∀ f, Q (s.raise f)) (hexec : s.PC.toNat ≤ 0xFFE → ∀ i u, execWith r i s = .next u → Q u.postStep) : Q t :=
  stepBy_next_induction (fun i => (execWith_next_cases r i s).imp fun _ h => h.1) h hs hraise hexec

/-- `CXNN` is the instruction that `execWith_of_ne_rnd` leaves over. -/
theorem eq_rnd_or_ne_rnd (i : Instr) : (∃ x nn, i = .rnd x nn) ∨ ∀ x nn, i ≠ .rnd x nn := by
  by_cases hi : ∃ x nn, i = .rnd x nn
  · exact .inl hi
  · exact .inr fun x nn e => hi ⟨x, nn, e⟩

/-- `CXNN` with a byte given writes one register; every other instruction is that of `exec_keeps_inv`. -/
theorem execWith_keeps_inv (h : s.Inv) (hp : s.PC.toNat ≤ 0xFFE) (r : Byte) (i : Instr) :
    ∃ t, execWith r i s = .next t ∧ t.Inv := by
  obtain ⟨x, nn, rfl⟩ | hi := eq_rnd_or_ne_rnd i
  · exact ⟨_, rfl, (h.setReg _ _).advance hp⟩
  · rw [execWith_of_ne_rnd hi]
    exact exec_keeps_inv h hp i

theorem State.Inv.stepWith {r : Byte} (hs : s.Inv) (h : s.stepWith r = .next t) : t.Inv :=
  stepWith_next_induction h hs hs.raise fun hp i _ hu => (of_eq_next (execWith_keeps_inv hs hp r i) hu).postStep

/-- A ROM that fits ends inside memory; one that does not changes nothing of the invariant (R171). -/
theorem State.Inv.resetAndLoad (hs : s.Inv) (rom : List Byte) : (s.resetAndLoad rom).2.Inv := by
  obtain hlong | hfits := Nat.lt_or_ge 3584 rom.length
  · rw [State.resetAndLoad_of_lt hlong]
    exact { hs with }
  · rw [State.resetAndLoad_of_le hfits]
    exact { invariantHoldsAtReset with memWf := Memory.wf_writeBytes Memory.wf_reset (by omega) }

theorem State.Inv.after {e : Event} (hs : s.Inv) (h : s.after e = some t) : t.Inv := by
  cases eventEffect_of_after h with
  | stepped r hstep => exact hs.stepWith hstep
  | loaded rom ht => exact ht ▸ hs.resetAndLoad rom
  | hostOnly K dirty ht => exact ht ▸ { hs with }

/-- Settles O53, by induction on the sequence of events, one event being `State.Inv.after`. -/
theorem eventsKeepTheInvariant : Obligations.EventsKeepTheInvariant := fun es _ _ =>
  afterAll_induction (fun _ _ _ => State.Inv.after) es

end Sys2Proof.Machine
end

section
/-!
PROOFS. What sets `dirty` (R21, R143): the display instructions where they complete, and a load.
-/

namespace Sys2Proof.Machine

variable {s t u : State} {i : Instr}

/-- An instruction that leaves nothing latched has set `dirty` exactly where it is a display instruction. -/
theorem exec_dirty_of_completed (hu : exec i s = .next u) (hf : u.fault = none) :
    u.dirty = (s.dirty || touchesDisplay i) := by
  have hframe : ChangesOnlyNamed i s u := of_eq_next (exec_changesOnlyNamed i s) hu
  cases i with
  | cls =>
    injection hu with hu
    rw [← hu]
    exact (Bool.or_true _).symm
  | drw x y n =>
    injection hu with hu
    subst hu
    obtain ⟨-, he⟩ | ⟨-, he⟩ := s.accessing_cases n _
    · rw [he]
      exact (Bool.or_true _).symm
    · rw [he] at hf
      cases hf
  | _ => exact (hframe.display rfl).2.trans (Bool.or_false _).symm

theorem step_dirty_of_decoded (hd : decodeWord s.fetchWord = some i) (h : step s = .next t) :
    t.dirty = (s.dirty || touchesDisplay i && t.fault.isNone) := by
  obtain ⟨r, -, hends⟩ := stepEnds_of_step h
  cases hends with
  | completed j u hj hu hf ht =>
    obtain rfl : j = i := Option.some.inj (hj.symm.trans hd)
    rw [ht, State.tick_dirty, State.tick_fault, hf, exec_dirty_of_completed hu hf, Option.isNone_none, Bool.and_true]
  | faulted f ht => simp [ht]
  | invalid hinvalid ht => cases hd.symm.trans hinvalid

/-- A step that executes no instruction does not report ok, so it changes the latch at most (R75). -/
theorem step_dirty_of_not_executed (hno : 0xFFE < s.PC.toNat ∨ decodeWord s.fetchWord = none) (h : step s = .next t) :
    t.dirty = s.dirty := by
  obtain ⟨hr, -⟩ := step_next_cases h
  have hne : stepReport s ≠ .ok .ok := by
    obtain hp | hp := Nat.lt_or_ge 0xFFE s.PC.toNat
    · simp [stepReport_of_fetchBeyond hr hp]
    · simp [stepReport_of_invalid hr hp (hno.resolve_left (Nat.not_lt.2 hp))]
  rw [faultingStepChangesOnlyTheLatch.2 s t h hne]

/-- Settles O11: a load leaves the `dirty` of the reset state, and the events are those of a loaded machine. -/
theorem dirtyTellsOfDisplayInstructionsSinceTheDrain : Obligations.DirtyTellsOfDisplayInstructionsSinceTheDrain := by
  refine ⟨fun rom s hfits => ?_, fun s i t _ => step_dirty_of_decoded, fun s t => step_dirty_of_not_executed, fun s hl => ?_⟩
  · rw [State.resetAndLoad_of_le hfits]
    rfl
  · exact ⟨State.whenLoaded_of_loaded hl _, State.after_isDirty hl, ⟨_, State.after_takeFrame hl, rfl⟩,
      fun k p => ⟨_, State.after_setKey hl k p, rfl⟩⟩

end Sys2Proof.Machine
end

section
/-!
PROOFS. The free byte (R101, R147, log 4): the step that takes it from the environment and the step that takes it as an argument
differ in `CXNN` and in the model's own count of draws alone.
-/

namespace Sys2Proof.Machine

variable {s t u : State} {i : Instr}

/-! ## The count of draws -/

@[simp] theorem State.postStep_draws (s : State) : s.postStep.draws = s.draws := by rw [s.postStep_eq]

theorem State.accessing_draws (n : Nat) (hu : u.draws = s.draws) : (s.accessing n u).draws = s.draws := by
  obtain ⟨-, he⟩ | ⟨-, he⟩ := s.accessing_cases n u
  · rwa [he]
  · rw [he, State.raise_draws]

/-- No instruction counts a draw where its byte is an argument. -/
theorem execWith_draws (r : Byte) (i : Instr) (s : State) : ∃ u, execWith r i s = .next u ∧ u.draws = s.draws := by
  cases i with
  | ret | call _ | skp _ | sknp _ | ldKey _ =>
    refine ⟨_, rfl, ?_⟩
    split <;> rfl
  | drw _ _ _ | bcd _ | stm _ | ldm _ => exact ⟨_, rfl, State.accessing_draws _ rfl⟩
  | _ => exact ⟨_, rfl, rfl⟩

theorem exec_draws_of_ne_rnd (hi : ∀ x nn, i ≠ .rnd x nn) (hu : exec i s = .next u) : u.draws = s.draws :=
  of_eq_next (execWith_draws 0 i s) ((execWith_of_ne_rnd hi 0 s).trans hu)

theorem stepWith_draws {r : Byte} (h : s.stepWith r = .next t) : t.draws = s.draws :=
  stepWith_next_induction (Q := fun t => t.draws = s.draws) h rfl (fun _ => rfl) fun _ i u hu =>
    u.postStep_draws.trans (of_eq_next (execWith_draws r i s) hu)

/-! ## The two kinds of step -/

/-- A step depends on how instructions are run only through the one it decodes. -/
theorem stepBy_congr {run run' : Instr → State → Result} {p : Config.InvalidOpcodePolicy}
    (h : ∀ i, decodeWord s.fetchWord = some i → run i s = run' i s) : stepBy run p s = stepBy run' p s := by
  unfold stepBy
  cases hd : decodeWord s.fetchWord with
  | none => rfl
  | some i => simp only [h i hd]

/-- An instruction is the one given the next free byte, but for the count of draws. -/
theorem execWith_freeByte (hu : exec i s = .next u) :
    execWith (Config.freeByte s.draws) i s = .next { u with draws := s.draws } := by
  obtain ⟨x, nn, rfl⟩ | hi := eq_rnd_or_ne_rnd i
  · injection hu with hu
    subst hu
    rfl
  · rw [execWith_of_ne_rnd hi, hu, ← exec_draws_of_ne_rnd hi hu]

/-- The post-step does not look at the count. -/
theorem State.postStep_setDraws (u : State) (n : Nat) :
    State.postStep { u with draws := n } = { u.postStep with draws := n } := by
  obtain hf | ⟨f, hf⟩ := Option.eq_none_or_eq_some u.fault
  · rw [State.postStep_of_none hf]
    exact State.postStep_of_none (s := { u with draws := n }) hf
  · rw [State.postStep_of_some hf]
    exact State.postStep_of_some (s := { u with draws := n }) hf

/-- So a step is the one given the next free byte, but for the count of draws. -/
theorem stepWith_freeByte (h : step s = .next t) :
    s.stepWith (Config.freeByte s.draws) = .next { t with draws := s.draws } := by
  obtain ⟨hr, ⟨hp, rfl⟩ | ⟨hp, hd, rfl⟩ | ⟨hp, i, u, hd, hu, rfl⟩⟩ := step_next_cases h
  · exact stepBy_of_fetchBeyond hr hp
  · refine (stepBy_of_invalid hr hp hd).trans ?_
    obtain he | he := s.takeInvalidOpcode_cases Config.invalidOpcodePolicy s.fetchWord
    · rw [he]
    · rw [he]
      rfl
  · rw [State.stepWith, stepBy_of_decoded hr hp hd, execWith_freeByte hu, finishStep, State.postStep_setDraws]

/-- Settles O21: the steps differ where their instructions do, and the instructions differ in `CXNN` alone. -/
theorem onlyRandomReadsTheFreeByte : Obligations.OnlyRandomReadsTheFreeByte := by
  refine ⟨fun s r hno => ?_, fun s t => stepWith_freeByte, fun s t r => stepWith_draws, fun i s t => exec_draws_of_ne_rnd⟩
  refine stepBy_congr fun i hd => execWith_of_ne_rnd ?_ r s
  rintro x nn rfl
  exact hno x nn hd

end Sys2Proof.Machine
end

section
/-!
PROOFS. The signal-level reading (R149, logs 1, 5, 10 and 11): the strobe of a step by the outcome of that step.
-/

namespace Sys2Proof.Machine

variable {s t : State} {key : BitVec 16} {r : Byte}

theorem getElem_keysFromPort (key : BitVec 16) (k : Fin 16) : (keysFromPort key)[k.val] = key.getLsbD k.val :=
  Vector.getElem_ofFn k.isLt

theorem stepStrobe_of_next {q : Report} (h : (s.sampleKeys key).stepWith r = .next t)
    (hq : stepReport (s.sampleKeys key) = .ok q) : s.stepStrobe key r = .ok (t, reportOutputs q) := by
  rw [State.stepStrobe, h, hq]
  rfl

theorem stepStrobe_of_fault {f : Fault} (h : (s.sampleKeys key).stepWith r = .fault f) :
    s.stepStrobe key r = .ok (s.sampleKeys key, reportOutputs (.fault f)) := by
  rw [State.stepStrobe, h]

theorem stepStrobe_of_notLoaded (hl : s.loaded = false) : s.stepStrobe key r = .error .notLoaded := by
  have hrefused : (s.sampleKeys key).stepWith r = .refused .notLoaded := stepBy_of_notLoaded hl
  rw [State.stepStrobe, hrefused]

/-- A step that answers a next state has a report, whatever its byte: a running machine's report does not depend on it. -/
theorem exists_stepReport_of_stepWith (h : s.stepWith r = .next t) : ∃ q, stepReport s = .ok q := by
  obtain ⟨hr, -⟩ := stepWith_next_cases h
  obtain ⟨u, hu, -⟩ := runningMachineAlwaysHasASuccessor s hr
  obtain ⟨q, hq, -⟩ := stepEnds_of_step hu
  exact ⟨q, hq⟩

/-- Settles O12: the keys are the levels sampled, and each outcome of the step has its strobe. -/
theorem stepStrobeSamplesThePorts : Obligations.StepStrobeSamplesThePorts := by
  intro s key r
  refine ⟨keysFromPort key, fun u hu => ?_⟩
  obtain rfl : u = s.sampleKeys key := hu
  refine ⟨getElem_keysFromPort key, fun t h => ?_, fun f h => stepStrobe_of_fault h, State.whenLoaded_of_loaded (a := _),
    fun hl => ⟨stepStrobe_of_notLoaded hl, State.whenLoaded_of_notLoaded hl _⟩⟩
  obtain ⟨q, hq⟩ := exists_stepReport_of_stepWith h
  refine ⟨_, stepStrobe_of_next h hq, ?_⟩
  cases q with
  | ok => exact .inl ⟨hq, rfl⟩
  | invalidOpcode op => exact .inr (.inl ⟨op, hq, rfl⟩)
  | fault f => exact .inr (.inr ⟨f, hq, rfl⟩)

end Sys2Proof.Machine
end

section
/-!
PROOFS. The stopped machine (R152, R157, R158): what stops it, what an event other than a load leaves of it, and what a load, the
only way out, leaves behind (R171, R173).
-/

namespace Sys2Proof.Machine

variable {s : State}

/-! ## The steps that execute nothing (R151, R152, R157) -/

/-- Settles O17, by the latched branch of the step and of its report. -/
theorem latchedFaultStopsEveryStep : Obligations.LatchedFaultStopsEveryStep := fun _ _ hl hf =>
  ⟨step_of_latched hl hf, stepReport_of_latched hl hf⟩

/-- Settles O15, by the fetch branch of the step and of its report. -/
theorem fetchBeyondMemoryLatches : Obligations.FetchBeyondMemoryLatches := fun _ hr hp =>
  ⟨step_of_fetchBeyond hr hp, stepReport_of_fetchBeyond hr hp⟩

/-- Settles O16: the invalid branch of the step, at each of the two policies. -/
theorem invalidOpcodeFollowsThePolicy : Obligations.InvalidOpcodeFollowsThePolicy := fun _ hr hp hd =>
  ⟨stepReport_of_invalid hr hp hd, stepBy_of_invalid hr hp hd, stepBy_of_invalid hr hp hd, rfl⟩

/-! ## Events on a stopped machine (R157, R158) -/

/-- The counterpart of `State.after_setKey` and its like for a step, which a latched fault stops. -/
theorem State.after_step_of_latched {f : Fault} (hl : s.loaded = true) (hf : s.fault = some f) (r : Byte) :
    s.after (.step r) = some s := by
  rw [State.after, State.stepWith, stepBy_of_latched hl hf, stateAfterStep]

theorem State.after_of_latched {f : Fault} (hl : s.loaded = true) (hf : s.fault = some f) {e : Event}
    (he : ∀ rom, e ≠ .resetAndLoad rom) : ∃ K dirty, s.after e = some { s with K := K, dirty := dirty } := by
  cases e with
  | step r => exact ⟨_, _, State.after_step_of_latched hl hf r⟩
  | setKey k p => exact ⟨_, _, State.after_setKey hl k p⟩
  | takeFrame => exact ⟨_, _, State.after_takeFrame hl⟩
  | isDirty => exact ⟨_, _, State.after_isDirty hl⟩
  | delayTimer => exact ⟨_, _, State.after_delayTimer hl⟩
  | soundTimer => exact ⟨_, _, State.after_soundTimer hl⟩
  | resetAndLoad rom => exact absurd rfl (he rom)

/-- Settles O13: neither the keys nor `dirty` is the latch or `loaded`, so the next step is stopped as this one was. -/
theorem onlyALoadLeavesAFault : Obligations.OnlyALoadLeavesAFault := by
  intro s f e t hl hf he h
  obtain ⟨K, dirty, hafter⟩ := State.after_of_latched hl hf he
  obtain rfl : t = { s with K := K, dirty := dirty } := Option.some.inj (h.symm.trans hafter)
  exact ⟨rfl, latchedFaultStopsEveryStep _ f hl hf⟩

/-! ## Loads (R171, R173) -/

/-- Settles O6, by the two answers of a load and `State.after_of_notLoaded`. -/
theorem oversizedRomLeavesTheMachineUnloaded : Obligations.OversizedRomLeavesTheMachineUnloaded := by
  intro rom s
  refine ⟨fun hfits => ?_, fun hlong => ?_⟩
  · rw [State.resetAndLoad_of_le hfits]
    exact ⟨rfl, rfl⟩
  · rw [State.resetAndLoad_of_lt hlong]
    exact ⟨rfl, rfl, fun e => State.after_of_notLoaded rfl⟩

/-- Settles O7: what a load that fits leaves names the state before it in the count of draws alone. -/
theorem loadForgetsEverythingBefore : Obligations.LoadForgetsEverythingBefore := by
  intro rom s t hfits
  rw [State.resetAndLoad_of_le (s := s) hfits, State.resetAndLoad_of_le (s := t) hfits]

end Sys2Proof.Machine
end

section
/-!
PROOFS. The decoder on the words written out from R55 and from the examples of spec/95_test_vectors.md.
-/

namespace Sys2Proof.Machine

/-- Settles O4: the decoder is run on each of the eighteen words. -/
theorem sampleWordsDecodeAsTheSpecSays : Obligations.SampleWordsDecodeAsTheSpecSays := by
  unfold Obligations.SampleWordsDecodeAsTheSpecSays
  decide

end Sys2Proof.Machine
end
